-- ==== Sys2Proof/Word.lean ====
section
/-! DEFINITION. The bit widths of Chunks-8 (00_scope.md R5, R8): bytes, instruction words and the fields of an
instruction word, which the source fixes, and the decided widths of a register and of an address (D1, D2; log 7).
The machine's definitions hold for any register width `W` and any address width `A`. -/

namespace Sys2Proof

/-- A memory cell's contents, an immediate and a jump's offset: 8 bits (20_memory.md R25, 30_encoding.md R49,
R51). A register of the decided machine too, `REG_WIDTH` = 8 (10_state.md R11; D1). -/
abbrev Byte := BitVec 8

/-- A byte address and the pc of the decided machine: `ADDR_WIDTH` = 8 bits (10_state.md R13; D2). -/
abbrev Addr := BitVec 8

/-- An instruction word `iw`: `ILEN` = 16 bits (30_encoding.md R42). -/
abbrev Word := BitVec 16

/-- A register number, the 3-bit fields `d`, `s`, `b` (10_state.md R10, 30_encoding.md R52): all eight values
name a register, so `NREGS` = 8. -/
abbrev RegId := BitVec 3

/-- The primary opcode `op = iw[15:12]` (30_encoding.md R43). -/
abbrev Opcode := BitVec 4

/-- The memory offset `off4 = iw[3:0]`, unsigned (30_encoding.md R50). -/
abbrev Off4 := BitVec 4

end Sys2Proof
end

