-- ==== Sys2Proof/Config.lean ====
section
/-! DEFINITION. What is fixed for a machine: the identity (R1), the values a parameter of 00_scope.md R5 can take,
and the one free value. The parameters themselves are `Params` in Machine/State.lean. -/

namespace Sys2Proof

/-- What stands behind an address (20_memory.md R33). -/
inductive Region where
  | ram | rom | io | unmapped
  deriving DecidableEq, Repr

/-- `RESERVED_NONZERO`: what a word with a non-zero reserved bit does (30_encoding.md R57). -/
inductive ReservedNonzero where
  /-- The decided value (D9): the word is an illegal instruction. -/
  | fault
  /-- The other behaviour R57 names: "ignore the bits and execute the instruction" (log 16). -/
  | ignore
  deriving DecidableEq, Repr

/-- The hardware's name (R1). -/
def Config.hardwareName : String := "Chunks-8"

/-- The hardware's version: the source gives none (R1). -/
def Config.version : String := "unversioned"

/-- FREE VALUE (20_memory.md R34; log 6): what the platform answers to the read of an `io` address, given how
many `io` events came before it and the address. It has no body: nothing constrains it. No run of the decided
machine reads it, since no address of `Config.params` is `io`. -/
opaque Config.ioDraw : Nat → Nat → Byte

end Sys2Proof
end

