-- ==== Sys2Proof/Syntax.lean ====
section
/-! DEFINITION. The sixteen instructions of Chunks-8 (30_encoding.md R53), one constructor per row of
spec/opcode_table.json, with the operand fields of its format (R45 to R48). -/

namespace Sys2Proof

/-- A decoded instruction. The fields are exactly the operand bits of the word, so that every value of this type
is an instruction: all eight register numbers are legal in every field (R52), an offset may be odd (R87), and
RET has no operand (R54). The ranges are checked on `AsmLine` (log 14). -/
inductive Instr where
  | add  (d s : RegId)
  | sub  (d s : RegId)
  | and  (d s : RegId)
  | or   (d s : RegId)
  | cmp  (d s : RegId)
  | movi (d : RegId) (imm : Byte)
  | addi (d : RegId) (imm : Byte)
  | subi (d : RegId) (imm : Byte)
  | andi (d : RegId) (imm : Byte)
  | ori  (d : RegId) (imm : Byte)
  | load  (d b : RegId) (off : Off4)
  | store (d b : RegId) (off : Off4)
  | jmp (off : Byte)
  | jz  (off : Byte)
  | jnz (off : Byte)
  | ret
  deriving DecidableEq, Repr

end Sys2Proof
end

