-- ==== Sys2Proof/Decode.lean ====
section
/-! DEFINITION. From bits to instructions (30_encoding.md R54) and back (R63). Decoding is total: a word with a
reserved bit set, or less than two bytes, is rejected by name (R57). -/

namespace Sys2Proof

/-- The four layouts of an instruction word (R45 to R48). -/
inductive Format where
  | a | b | c | d
  deriving DecidableEq, Repr

/-- Why bytes are no instruction. -/
inductive DecodeError where
  /-- Fewer than two bytes are left: every instruction is exactly 2 bytes (R42). -/
  | truncated
  /-- A reserved bit of the word is 1 (R57). The core raises `IllegalInstruction` for it. Safe: the hardware may
  ignore the bit and go on. -/
  | reservedNonzero (iw : Word)
  deriving DecidableEq, Repr

/-- The format is known from the opcode alone (R54). -/
def formatOf (op : Opcode) : Format :=
  if op ≤ 0b0100#4 then .a
  else if op ≤ 0b1001#4 then .b
  else if op ≤ 0b1011#4 then .c
  else .d

/-- The reserved bits of each format (R56). -/
def reservedMask : Format → Word
  | .a => 0x088F
  | .b => 0x0800
  | .c => 0x0880
  | .d => 0x0F00

/-- `op = iw[15:12]` (R8). -/
def opField (iw : Word) : Opcode := iw.extractLsb' 12 4

/-- `d = iw[10:8]` (R8). -/
def dField (iw : Word) : RegId := iw.extractLsb' 8 3

/-- `s` of type A and `b` of type C are both `iw[6:4]` (R8). -/
def sField (iw : Word) : RegId := iw.extractLsb' 4 3

/-- `off4 = iw[3:0]` (R8). -/
def off4Field (iw : Word) : Off4 := iw.extractLsb' 0 4

/-- The payload `iw[7:0]`: `imm8` of type B, `off8` of type D (R8). -/
def payload (iw : Word) : Byte := iw.extractLsb' 0 8

/-- The opcode map of R53 (SUBI is 0x7 and ANDI is 0x8: 90_conflicts.md C1; log 10), with each instruction's operands
among the fields of the word. -/
def instrOf (iw : Word) : Instr :=
  match (opField iw).toNat with
  | 0x0 => .add (dField iw) (sField iw)
  | 0x1 => .sub (dField iw) (sField iw)
  | 0x2 => .and (dField iw) (sField iw)
  | 0x3 => .or (dField iw) (sField iw)
  | 0x4 => .cmp (dField iw) (sField iw)
  | 0x5 => .movi (dField iw) (payload iw)
  | 0x6 => .addi (dField iw) (payload iw)
  | 0x7 => .subi (dField iw) (payload iw)
  | 0x8 => .andi (dField iw) (payload iw)
  | 0x9 => .ori (dField iw) (payload iw)
  | 0xA => .load (dField iw) (sField iw) (off4Field iw)
  | 0xB => .store (dField iw) (sField iw) (off4Field iw)
  | 0xC => .jmp (payload iw)
  | 0xD => .jz (payload iw)
  | 0xE => .jnz (payload iw)
  | _ => .ret

/-- The decode procedure (R54): the opcode fixes the format, a reserved bit of the format that is set makes the
word illegal (R57; log 9), every other word is the one instruction the opcode map gives (R58). -/
def decodeWord (iw : Word) : Except DecodeError Instr :=
  if iw &&& reservedMask (formatOf (opField iw)) = 0 then .ok (instrOf iw)
  else .error (.reservedNonzero iw)

/-- The decode procedure under any `RESERVED_NONZERO`: with the decided value it is `decodeWord`; with the other,
every word is the instruction its other bits give (R57; log 16). -/
def decodeWith (r : ReservedNonzero) (iw : Word) : Except DecodeError Instr :=
  match r with
  | .fault => decodeWord iw
  | .ignore => .ok (instrOf iw)

/-- The word of two bytes as stored: the first byte, at the even address, is `iw[15:8]` (20_memory.md R26; log 8). -/
def wordOfBytes (first second : Byte) : Word := first ++ second

/-- `iw[15:8]`, the byte at the even address (R26). -/
def firstByte (iw : Word) : Byte := iw.extractLsb' 8 8

/-- `iw[7:0]`, the byte at the odd address (R26). -/
def secondByte (iw : Word) : Byte := iw.extractLsb' 0 8

/-- Decode the instruction at the head of a list of bytes, with the bytes after it. -/
def decode : List Byte → Except DecodeError (Instr × List Byte)
  | first :: second :: rest => (decodeWord (wordOfBytes first second)).map (fun i => (i, rest))
  | _ => .error .truncated

/-- What the host asks: the instruction whose bits are `w`, bit 0 the least significant of the word; bits at
`nbits` and above are 0. -/
def decodeTableWord (nbits w : Nat) : Option Instr :=
  let iw : Word := BitVec.ofNat 16 (w % 2 ^ nbits)
  match decode [firstByte iw, secondByte iw] with
  | .ok (i, _) => some i
  | .error _ => none

/-- Type A, `oooo 0ddd 0sss 0000` (R45). -/
def packA (op : Opcode) (d s : RegId) : Word := op ++ 0#1 ++ d ++ 0#1 ++ s ++ 0#4

/-- Type B, `oooo 0ddd iiii iiii` (R46). -/
def packB (op : Opcode) (d : RegId) (imm : Byte) : Word := op ++ 0#1 ++ d ++ imm

/-- Type C, `oooo 0ddd 0bbb ffff` (R47). -/
def packC (op : Opcode) (d b : RegId) (off : Off4) : Word := op ++ 0#1 ++ d ++ 0#1 ++ b ++ off

/-- Type D, `oooo 0000 ffff ffff` (R48). -/
def packD (op : Opcode) (off : Byte) : Word := op ++ 0#4 ++ off

/-- The opcode of each instruction (R53). -/
def opcodeOf : Instr → Opcode
  | .add _ _ => 0x0
  | .sub _ _ => 0x1
  | .and _ _ => 0x2
  | .or _ _ => 0x3
  | .cmp _ _ => 0x4
  | .movi _ _ => 0x5
  | .addi _ _ => 0x6
  | .subi _ _ => 0x7
  | .andi _ _ => 0x8
  | .ori _ _ => 0x9
  | .load _ _ _ => 0xA
  | .store _ _ _ => 0xB
  | .jmp _ => 0xC
  | .jz _ => 0xD
  | .jnz _ => 0xE
  | .ret => 0xF

/-- The encoder (R63). RET is its canonical word 0xF000 (R48). -/
def encode (i : Instr) : Word :=
  match i with
  | .add d s | .sub d s | .and d s | .or d s | .cmp d s => packA (opcodeOf i) d s
  | .movi d imm | .addi d imm | .subi d imm | .andi d imm | .ori d imm => packB (opcodeOf i) d imm
  | .load d b off | .store d b off => packC (opcodeOf i) d b off
  | .jmp off | .jz off | .jnz off => packD (opcodeOf i) off
  | .ret => packD (opcodeOf i) 0

/-- An instruction's two bytes in the order they are stored (20_memory.md R26). -/
def encodeBytes (i : Instr) : List Byte := [firstByte (encode i), secondByte (encode i)]

end Sys2Proof
end

