-- ==== Sys2Proof/Machine/State.lean ====
section
/-! DEFINITION. The reasons a step can stop, the parameters of 00_scope.md R5, the whole state of a Chunks-8
machine (10_state.md R10 to R24) as plain data, and the state after reset (R22, 70_reset_and_hazards.md R107).
`W` is `REG_WIDTH`, `A` is `ADDR_WIDTH` and `σ` the type of `RET_MODEL`'s extra state; the decided machine is the
one with 8, 8 and no such state. -/

namespace Sys2Proof.Machine

/-- Memory as (address, byte) pairs in one canonical form (`Memory.wf`): addresses strictly rising, none listed
at the byte an unlisted address reads as (20_memory.md R25, 10_state.md R20). -/
abbrev Memory := List Host.Cell

/-- The kinds of access an `AccessFault` records (60_exceptions.md R93). -/
inductive AccessKind where
  | fetch | read | write
  deriving DecidableEq, Repr

/-- The model faults of 60_exceptions.md R93 with their recorded information. They are the values of the state
item `fault` (R21), and the reason `step` gives when a machine whose `fault` is set has no further step. -/
inductive Fault.Of (A : Nat) where
  /-- The step raises it before the fetch, when the pc is odd (R29). Safe: the hardware may ignore bit 0 (D14). -/
  | misalignedFetch (pc : BitVec A)
  /-- A fetch from `io` or `unmapped`, a LOAD from `unmapped`, a STORE to `rom` or `unmapped` raises it (R30 to
  R32). Safe: the hardware may carry on (D23). It cannot occur with the decided `MemMap`. -/
  | accessFault (addr : BitVec A) (kind : AccessKind)
  /-- Decoding a word with a reserved bit set raises it (R57). Safe: the hardware may ignore the bit (D9). -/
  | illegalInstruction (pc : BitVec A) (iw : Word)
  /-- RET raises it, always, under `RET_MODEL` = none (R90). Safe: nothing can be proved of what follows (D15). -/
  | retStackUndefined (pc : BitVec A)
  deriving DecidableEq, Repr

/-- The faults of the decided machine. -/
abbrev Fault := Fault.Of 8

/-- Why the model would give an instruction no meaning. -/
inductive Refusal where
  /-- An arm of `exec` without a meaning would raise it; no arm does. Safe: nothing can be proved of it. -/
  | notModelled (mnemonic : String)
  deriving DecidableEq, Repr

/-- One access to an `io` address (20_memory.md R34). -/
inductive IoEvent (A : Nat) where
  /-- A LOAD read the address and the platform answered the value. -/
  | read (addr : BitVec A) (value : Byte)
  /-- A STORE handed the address and the value to the platform. -/
  | write (addr : BitVec A) (value : Byte)
  deriving DecidableEq, Repr

/-- The record a reader with evidence about the real stack supplies for `RET_MODEL` (43_control_flow.md R91): its
extra state S is `σ`, with its reset value, and `pop` takes S and memory to a new pc and a new S, or to a fault. -/
structure RetStack (A : Nat) (σ : Type) where
  reset : σ
  pop : σ → (BitVec A → Byte) → Except (Fault.Of A) (BitVec A × σ)

end Sys2Proof.Machine

namespace Sys2Proof

/-- The parameters of 00_scope.md R5. `REG_WIDTH` is the index `W` and `ADDR_WIDTH` the index `A`; `NREGS` and
`ILEN` are the source's own (`RegId`, `Word`); `END` is the argument of `Machine.runFuelUnder`. -/
structure Params (W A : Nat) (σ : Type) where
  /-- `UNIFIED_MEMORY`: fetch and LOAD/STORE see one address space (20_memory.md R25; log 17). -/
  unifiedMemory : Bool
  /-- `FETCH_BIG_ENDIAN`: the byte at the even address holds `iw[15:8]` (20_memory.md R26; log 18). -/
  fetchBigEndian : Bool
  /-- `ALU_WRITES_Z` (10_state.md R17). -/
  aluWritesZ : Bool
  /-- `RESERVED_NONZERO` (30_encoding.md R57). -/
  reservedNonzero : ReservedNonzero
  /-- `RET_MODEL` (43_control_flow.md R91). -/
  retModel : Option (Machine.RetStack A σ)
  /-- `RESET_PC` (10_state.md R22). -/
  resetPc : BitVec A
  /-- `MemMap` (20_memory.md R33). -/
  memMap : BitVec A → Region

/-- The values the spec decides (R5): registers and addresses of 8 bits (D1, D2), one address space (D3), high
byte first (D4), only CMP writes Z (D7), a reserved bit faults (D9), RET faults (D15), the pc is 0x00 after reset
(D20), every address is `ram` (D22). UNVERIFIED, unsafe (log 11). -/
def Config.params : Params 8 8 Empty where
  unifiedMemory := true
  fetchBigEndian := true
  aluWritesZ := false
  reservedNonzero := .fault
  retModel := none
  resetPc := 0x00
  memMap := fun _ => .ram

end Sys2Proof

namespace Sys2Proof.Machine

/-- The machine's state (10_state.md, the table of its first section, and R24) for any widths. -/
structure State.Of (W A : Nat) (σ : Type) where
  /-- R0 to R7 (R10). -/
  regs : Vector (BitVec W) 8
  /-- The address of the instruction being executed (R14). -/
  pc : BitVec A
  /-- The zero flag `Z` (R16). -/
  z : Bool
  /-- The bytes of memory (R20). -/
  mem : Memory
  /-- The fault marker (R21). -/
  fault : Option (Fault.Of A)
  /-- The observable history of `io` reads and writes in program order (20_memory.md R34), oldest first. The
  model's own field (log 6): empty for ever when no address is `io`. -/
  ioLog : List (IoEvent A)
  /-- What fetch reads when `UNIFIED_MEMORY` is false (log 17). The decided machine never reads it. -/
  code : Memory
  /-- The extra state S of a supplied `RET_MODEL` (43_control_flow.md R91; log 5). With no model `σ` is empty, so
  this is always `none`: the decided machine has no stack state (R19). -/
  stack : Option σ
  deriving DecidableEq, Repr

/-- The state of the decided machine. -/
abbrev State := State.Of 8 8 Empty

/-- A state right after reset with everything the spec leaves arbitrary as an argument: the registers, the flag
and the memory's contents (R22, R107). -/
def State.launch {W A : Nat} {σ : Type} (p : Params W A σ) (regs : Vector (BitVec W) 8) (z : Bool)
    (mem code : Memory) : State.Of W A σ where
  regs := regs
  pc := p.resetPc
  z := z
  mem := mem
  fault := none
  ioLog := []
  code := code
  stack := p.retModel.map (·.reset)

/-- The machine right after reset: pc = `RESET_PC` = 0x00 and fault = none as R107 says. DESIGN CHOICE, unsafe:
where R107 says arbitrary, the registers hold 0 (log 1), Z is 0 (log 2) and no byte of memory is listed
(log 3). `State.launch` quantifies over all of them. -/
def State.reset : State := State.launch Config.params (Vector.replicate 8 0) false [] []

end Sys2Proof.Machine
end

