-- ==== Sys2Proof/Machine/Ops.lean ====
section
/-! DEFINITION. The named operations over registers, pc, flag, memory and `io` (00_scope.md R7; 20_memory.md R30
to R34), and raising a fault (60_exceptions.md R92). There is no trap entry and no trap return (R97, R99). -/

namespace Sys2Proof.Machine

/-- What an instruction or a step answers, for any widths. -/
abbrev ResultOf (W A : Nat) (σ : Type) := Host.Outcome (State.Of W A σ) (Fault.Of A) Refusal

/-- What an instruction or a step of the decided machine answers. -/
abbrev Result := ResultOf 8 8 Empty

variable {W A : Nat} {σ : Type}

/-! ### Memory -/

/-- What an address that is not listed reads as. DESIGN CHOICE, unsafe (log 3): R22 says any fixed value. -/
def Memory.unlisted : Byte := 0

/-- The byte at an address. -/
def Memory.read : Memory → Nat → Byte
  | [], _ => Memory.unlisted
  | (b, v) :: m, a => if a = b then v else Memory.read m a

/-- Every cell but those of an address. -/
def Memory.erase (m : Memory) (a : Nat) : Memory := m.filter (fun c => c.1 ≠ a)

/-- A cell put before the first cell of a higher address. -/
def Memory.insert : Memory → Nat → Byte → Memory
  | [], a, v => [(a, v)]
  | c :: m, a, v => if a < c.1 then (a, v) :: c :: m else c :: Memory.insert m a v

/-- Writing one byte: writing what an unlisted address reads as leaves the address unlisted. -/
def Memory.write (m : Memory) (a : Nat) (v : Byte) : Memory :=
  if v = Memory.unlisted then m.erase a else (m.erase a).insert a v

/-- The canonical form over a number of addresses: addresses strictly rising and inside the address space
(20_memory.md R25), no cell equal to what an unlisted address reads as. -/
abbrev Memory.wfAt (size : Nat) (m : Memory) : Prop :=
  m.Pairwise (fun x y => x.1 < y.1) ∧ ∀ c ∈ m, c.1 < size ∧ c.2 ≠ Memory.unlisted

/-- The canonical form over the 256 addresses of the decided machine. -/
abbrev Memory.wf (m : Memory) : Prop := m.wfAt 256

/-- Place an instruction word at an address as the loader does, high byte first (20_memory.md R26), or low byte
first where `FETCH_BIG_ENDIAN` is false (log 18). -/
def Memory.placeWord (m : Memory) (bigEndian : Bool) (a : BitVec A) (iw : Word) : Memory :=
  if bigEndian then (m.write a.toNat (firstByte iw)).write (a + 1).toNat (secondByte iw)
  else (m.write a.toNat (secondByte iw)).write (a + 1).toNat (firstByte iw)

/-- Place a program's words one after the other (70_reset_and_hazards.md R109.1). -/
def Memory.placeProgram (m : Memory) (bigEndian : Bool) (a : BitVec A) : List Word → Memory
  | [] => m
  | iw :: rest => (m.placeWord bigEndian a iw).placeProgram bigEndian (a + 2) rest

/-! ### Registers, flag, pc -/

/-- `x[r]` (R7). -/
def State.Of.reg (s : State.Of W A σ) (r : RegId) : BitVec W := s.regs[r.toNat]'r.isLt

/-- `x[r] <- v` (R7). No register is hard-wired (10_state.md R12). -/
def State.Of.setReg (s : State.Of W A σ) (r : RegId) (v : BitVec W) : State.Of W A σ :=
  { s with regs := s.regs.set r.toNat v r.isLt }

/-- `Z <- b` (R7). -/
def State.Of.setZ (s : State.Of W A σ) (b : Bool) : State.Of W A σ := { s with z := b }

/-- `pc <- t` (R7). -/
def State.Of.setPc (s : State.Of W A σ) (t : BitVec A) : State.Of W A σ := { s with pc := t }

/-- `pc <- pc + 2`, wrapping (10_state.md R14, R15). -/
def State.Of.advance (s : State.Of W A σ) : State.Of W A σ := s.setPc (s.pc + 2)

/-- `mem[a]` (10_state.md R20). -/
def State.Of.byte (s : State.Of W A σ) (a : BitVec A) : Byte := s.mem.read a.toNat

/-- `mem[a] <- v`. -/
def State.Of.setByte (s : State.Of W A σ) (a : BitVec A) (v : Byte) : State.Of W A σ :=
  { s with mem := s.mem.write a.toNat v }

/-- Add one event at the end of the `io` history (20_memory.md R34). -/
def State.Of.logIo (s : State.Of W A σ) (e : IoEvent A) : State.Of W A σ := { s with ioLog := s.ioLog ++ [e] }

/-! ### Faults -/

/-- `raise F` (60_exceptions.md R92): the marker is set and nothing else changes. The step that raises
answers the state after (log 4); a marker that is already set is replaced, which no step does (log 15). -/
def State.Of.raise (s : State.Of W A σ) (f : Fault.Of A) : State.Of W A σ := { s with fault := some f }

/-! ### Accesses -/

/-- `pc[0] = 1`: the pc is odd (10_state.md R14; log 9). -/
def State.Of.oddPc (s : State.Of W A σ) : Bool := s.pc.toNat % 2 == 1

/-- `MemRead(a, 1)` (20_memory.md R30): the byte and the state after, or the fault to raise. Reading an `io`
address draws the free value and records the event (R34). -/
def memRead (p : Params W A σ) (a : BitVec A) (s : State.Of W A σ) :
    Except (Fault.Of A) (Byte × State.Of W A σ) :=
  match p.memMap a with
  | .ram | .rom => .ok (s.byte a, s)
  | .io => .ok (Config.ioDraw s.ioLog.length a.toNat, s.logIo (.read a (Config.ioDraw s.ioLog.length a.toNat)))
  | .unmapped => .error (.accessFault a .read)

/-- `MemWrite(a, 1, v)` (20_memory.md R31): the state after, or the fault to raise. -/
def memWrite (p : Params W A σ) (a : BitVec A) (v : Byte) (s : State.Of W A σ) :
    Except (Fault.Of A) (State.Of W A σ) :=
  match p.memMap a with
  | .ram => .ok (s.setByte a v)
  | .io => .ok (s.logIo (.write a v))
  | .rom | .unmapped => .error (.accessFault a .write)

/-- Whether an instruction byte may be fetched from an address (20_memory.md R32). -/
def fetchable (p : Params W A σ) (a : BitVec A) : Bool :=
  match p.memMap a with
  | .ram | .rom => true
  | .io | .unmapped => false

/-- The two bytes at an address as an instruction word, the first one high (20_memory.md R26, R32). -/
def State.Of.wordAt (s : State.Of W A σ) (a : BitVec A) : Word := wordOfBytes (s.byte a) (s.byte (a + 1))

/-- The byte a fetch sees at an address: memory's, or with `UNIFIED_MEMORY` false the instruction memory's
(20_memory.md R25; log 17). -/
def codeByte (p : Params W A σ) (s : State.Of W A σ) (a : BitVec A) : Byte :=
  if p.unifiedMemory then s.byte a else s.code.read a.toNat

/-- The word a fetch makes of the two bytes at an address (20_memory.md R26; log 8, log 18). -/
def codeWord (p : Params W A σ) (s : State.Of W A σ) (a : BitVec A) : Word :=
  if p.fetchBigEndian then wordOfBytes (codeByte p s a) (codeByte p s (a + 1))
  else wordOfBytes (codeByte p s (a + 1)) (codeByte p s a)

/-- `Fetch(pc)` (20_memory.md R32): the byte at pc is checked first, then the one at pc + 1. -/
def fetch (p : Params W A σ) (s : State.Of W A σ) : Except (Fault.Of A) Word :=
  if fetchable p s.pc then
    if fetchable p (s.pc + 1) then .ok (codeWord p s s.pc) else .error (.accessFault (s.pc + 1) .fetch)
  else .error (.accessFault s.pc .fetch)

/-- Place an instruction word where a fetch from the address sees it, as the loader does (log 12). -/
def State.Of.placeWord (p : Params W A σ) (s : State.Of W A σ) (a : BitVec A) (iw : Word) : State.Of W A σ :=
  if p.unifiedMemory then { s with mem := s.mem.placeWord p.fetchBigEndian a iw }
  else { s with code := s.code.placeWord p.fetchBigEndian a iw }

end Sys2Proof.Machine
end

