-- ==== Sys2Proof/Machine/Flags.lean ====
section
/-! DEFINITION. The zero flag: its condition (40_alu_register.md R69; D8) and who writes it (10_state.md R17). -/

namespace Sys2Proof.Machine

variable {W A : Nat} {σ : Type}

/-- The zero flag of a result. -/
def zeroFlag (v : BitVec W) : Bool := v == 0

/-- The flag CMP gives: whether the wrapped difference is zero (R69; log 10). -/
def compareFlag (a b : BitVec W) : Bool := zeroFlag (a - b)

/-- With `ALU_WRITES_Z` the result of an ALU instruction writes Z; with the decided value it does not (R17). -/
def State.Of.setAluZ (p : Params W A σ) (v : BitVec W) (s : State.Of W A σ) : State.Of W A σ :=
  if p.aluWritesZ then s.setZ (zeroFlag v) else s

/-- How ADD, SUB, AND, OR and their immediate forms other than MOVI end: the result to `x[d]`, the flag if
`ALU_WRITES_Z`, the pc to the next instruction (R64, R71). -/
def State.Of.writeAlu (p : Params W A σ) (d : RegId) (v : BitVec W) (s : State.Of W A σ) : State.Of W A σ :=
  ((s.setReg d v).setAluZ p v).advance

end Sys2Proof.Machine
end

