-- ==== Sys2Proof/Machine/Operands.lean ====
section
/-! DEFINITION. The operands an instruction computes: an immediate (41_alu_immediate.md R71), the effective address
of LOAD and STORE (42_memory_access.md R78) and the target of a jump (43_control_flow.md R83). -/

namespace Sys2Proof.Machine

variable {W A : Nat} {σ : Type}

/-- A byte as a register's value: the same number (30_encoding.md R49, 20_memory.md R35; log 19). -/
def regOfByte (W : Nat) (v : Byte) : BitVec W := v.setWidth W

/-- The byte of a register that STORE writes: with `REG_WIDTH` = 8 all of it (20_memory.md R35; log 19). -/
def byteOfReg (v : BitVec W) : Byte := v.setWidth 8

/-- `EA = (x[b] + off4) mod 2^ADDR_WIDTH`, base and offset zero-extended (R78, R81, 30_encoding.md R50; log 10). -/
def effAddr (s : State.Of W A σ) (b : RegId) (off : Off4) : BitVec A := (s.reg b).setWidth A + off.setWidth A

/-- `target = (pc + 2 + sext(off8)) mod 2^ADDR_WIDTH`, pc the address of the jump itself. -/
def jumpTarget (pc : BitVec A) (off : Byte) : BitVec A := pc + 2 + off.signExtend A

end Sys2Proof.Machine
end

