-- ==== Sys2Proof/Machine/AluImmediate.lean ====
section
/-! DEFINITION. MOVI, ADDI, SUBI, ANDI, ORI (41_alu_immediate.md). -/

namespace Sys2Proof.Machine

variable {W A : Nat} {σ : Type}

/-- MOVI: `x[d] <- imm8`; Z is written under no setting of the parameters (R72). -/
def execMovi (d : RegId) (imm : Byte) (s : State.Of W A σ) : ResultOf W A σ :=
  .next (s.setReg d (regOfByte W imm)).advance

/-- ADDI under any parameters (R73). -/
def addiUnder (p : Params W A σ) (d : RegId) (imm : Byte) (s : State.Of W A σ) : ResultOf W A σ :=
  .next (s.writeAlu p d (s.reg d + regOfByte W imm))

/-- ADDI: `x[d] <- (x[d] + imm8) mod 256` (R73). -/
def execAddi (d : RegId) (imm : Byte) (s : State) : Result := addiUnder Config.params d imm s

/-- SUBI under any parameters (R74). -/
def subiUnder (p : Params W A σ) (d : RegId) (imm : Byte) (s : State.Of W A σ) : ResultOf W A σ :=
  .next (s.writeAlu p d (s.reg d - regOfByte W imm))

/-- SUBI: `x[d] <- (x[d] - imm8) mod 256` (R74). -/
def execSubi (d : RegId) (imm : Byte) (s : State) : Result := subiUnder Config.params d imm s

/-- ANDI under any parameters (R75). -/
def andiUnder (p : Params W A σ) (d : RegId) (imm : Byte) (s : State.Of W A σ) : ResultOf W A σ :=
  .next (s.writeAlu p d (s.reg d &&& regOfByte W imm))

/-- ANDI: `x[d] <- x[d] AND imm8` (R75). -/
def execAndi (d : RegId) (imm : Byte) (s : State) : Result := andiUnder Config.params d imm s

/-- ORI under any parameters (R76). -/
def oriUnder (p : Params W A σ) (d : RegId) (imm : Byte) (s : State.Of W A σ) : ResultOf W A σ :=
  .next (s.writeAlu p d (s.reg d ||| regOfByte W imm))

/-- ORI: `x[d] <- x[d] OR imm8` (R76). -/
def execOri (d : RegId) (imm : Byte) (s : State) : Result := oriUnder Config.params d imm s

end Sys2Proof.Machine
end

