-- ==== Sys2Proof/Machine/AluRegister.lean ====
section
/-! DEFINITION. ADD, SUB, AND, OR, CMP (40_alu_register.md). Each meaning is given under any parameters
(`…Under`) and, for `exec`, under the decided ones. -/

namespace Sys2Proof.Machine

variable {W A : Nat} {σ : Type}

/-- ADD under any parameters (R65). -/
def addUnder (p : Params W A σ) (d r : RegId) (s : State.Of W A σ) : ResultOf W A σ :=
  .next (s.writeAlu p d (s.reg d + s.reg r))

/-- ADD: `x[d] <- (x[d] + x[s]) mod 256` (R65). -/
def execAdd (d r : RegId) (s : State) : Result := addUnder Config.params d r s

/-- SUB under any parameters (R66). -/
def subUnder (p : Params W A σ) (d r : RegId) (s : State.Of W A σ) : ResultOf W A σ :=
  .next (s.writeAlu p d (s.reg d - s.reg r))

/-- SUB: `x[d] <- (x[d] - x[s]) mod 256` (R66). -/
def execSub (d r : RegId) (s : State) : Result := subUnder Config.params d r s

/-- AND under any parameters (R67). -/
def andUnder (p : Params W A σ) (d r : RegId) (s : State.Of W A σ) : ResultOf W A σ :=
  .next (s.writeAlu p d (s.reg d &&& s.reg r))

/-- AND: `x[d] <- x[d] AND x[s]` (R67). -/
def execAnd (d r : RegId) (s : State) : Result := andUnder Config.params d r s

/-- OR under any parameters (R68). -/
def orUnder (p : Params W A σ) (d r : RegId) (s : State.Of W A σ) : ResultOf W A σ :=
  .next (s.writeAlu p d (s.reg d ||| s.reg r))

/-- OR: `x[d] <- x[d] OR x[s]` (R68). -/
def execOr (d r : RegId) (s : State) : Result := orUnder Config.params d r s

/-- CMP: `Z <- ((x[d] - x[s]) mod 256 = 0)`, no register written, under every setting of the parameters (R69). -/
def execCmp (d r : RegId) (s : State.Of W A σ) : ResultOf W A σ :=
  .next (s.setZ (compareFlag (s.reg d) (s.reg r))).advance

end Sys2Proof.Machine
end

