-- ==== Sys2Proof/Machine/ControlFlow.lean ====
section
/-! DEFINITION. JMP, JZ, JNZ, RET (43_control_flow.md). No field of `Params` bears on the jumps. -/

namespace Sys2Proof.Machine

variable {W A : Nat} {σ : Type}

/-- JMP: `pc <- (pc + 2 + sext(off8)) mod 2^ADDR_WIDTH` (R84). -/
def execJmp (off : Byte) (s : State.Of W A σ) : ResultOf W A σ := .next (s.setPc (jumpTarget s.pc off))

/-- A jump that is taken or goes on to the next instruction (R83). -/
def State.Of.branch (taken : Bool) (off : Byte) (s : State.Of W A σ) : State.Of W A σ :=
  if taken then s.setPc (jumpTarget s.pc off) else s.advance

/-- JZ: taken exactly when Z = 1 (R85; 90_conflicts.md C9; log 10). -/
def execJz (off : Byte) (s : State.Of W A σ) : ResultOf W A σ := .next (s.branch s.z off)

/-- JNZ: taken exactly when Z = 0 (R86; 90_conflicts.md C9; log 10). -/
def execJnz (off : Byte) (s : State.Of W A σ) : ResultOf W A σ := .next (s.branch (!s.z) off)

/-- `S <- S'` (R91). -/
def State.Of.setStack (s : State.Of W A σ) (stack : σ) : State.Of W A σ := { s with stack := some stack }

/-- RET under any parameters (R90, R91): with no `RET_MODEL` it raises `RetStackUndefined(pc)`; with one it pops,
`(t, S') <- pop(S, mem); S <- S'; pc <- t`, or raises pop's fault. A state that holds no S pops from the model's
reset value; no state reached from reset does so (log 5). -/
def retUnder (p : Params W A σ) (s : State.Of W A σ) : ResultOf W A σ :=
  match p.retModel with
  | none => .next (s.raise (.retStackUndefined s.pc))
  | some m =>
    match m.pop (s.stack.getD m.reset) s.byte with
    | .ok (t, stack) => .next ((s.setStack stack).setPc t)
    | .error f => .next (s.raise f)

/-- RET with the decided `RET_MODEL` = none: raise `RetStackUndefined(pc)` (R90; log 5). -/
def execRet (s : State) : Result := retUnder Config.params s

end Sys2Proof.Machine
end

