-- ==== Sys2Proof/Machine/MemoryAccess.lean ====
section
/-! DEFINITION. LOAD and STORE (42_memory_access.md). -/

namespace Sys2Proof.Machine

variable {W A : Nat} {σ : Type}

/-- LOAD under any parameters (R79): the base is read before `x[d]` is written; a fault changes nothing else. -/
def loadUnder (p : Params W A σ) (d b : RegId) (off : Off4) (s : State.Of W A σ) : ResultOf W A σ :=
  match memRead p (effAddr s b off) s with
  | .ok (v, t) => .next (t.setReg d (regOfByte W v)).advance
  | .error f => .next (s.raise f)

/-- LOAD: `x[d] <- MemRead(EA, 1)` (R79). -/
def execLoad (d b : RegId) (off : Off4) (s : State) : Result := loadUnder Config.params d b off s

/-- STORE under any parameters (R80): a fault changes nothing else. -/
def storeUnder (p : Params W A σ) (d b : RegId) (off : Off4) (s : State.Of W A σ) : ResultOf W A σ :=
  match memWrite p (effAddr s b off) (byteOfReg (s.reg d)) s with
  | .ok t => .next t.advance
  | .error f => .next (s.raise f)

/-- STORE: `MemWrite(EA, 1, x[d])` (R80). -/
def execStore (d b : RegId) (off : Off4) (s : State) : Result := storeUnder Config.params d b off s

end Sys2Proof.Machine
end

