-- ==== Sys2Proof/Machine/Cycle.lean ====
section
/-! DEFINITION. The instruction cycle (10_state.md R14), and every instruction's meaning under any parameters. -/

namespace Sys2Proof.Machine

variable {W A : Nat} {σ : Type}

/-- One step (R14), with the checks in the order of 60_exceptions.md R96: a machine whose fault is set has no
further step; an odd pc, the fetch and the decoder may raise; else the instruction runs. Nothing but
the core's own instruction changes the state (60_exceptions.md R95, R105; log 13). -/
def cycle (p : Params W A σ) (run : Instr → State.Of W A σ → ResultOf W A σ) (s : State.Of W A σ) :
    ResultOf W A σ :=
  match s.fault with
  | some f => .fault f
  | none =>
    if s.oddPc then .next (s.raise (.misalignedFetch s.pc))
    else
      match fetch p s with
      | .error f => .next (s.raise f)
      | .ok iw =>
        match decodeWith p.reservedNonzero iw with
        | .error _ => .next (s.raise (.illegalInstruction s.pc iw))
        | .ok i => run i s

/-- Every instruction under any parameters (R5, R17, R30, R31, R91). `exec` is this at `Config.params`. -/
def execUnder (p : Params W A σ) (i : Instr) (s : State.Of W A σ) : ResultOf W A σ :=
  match i with
  | .add d r => addUnder p d r s
  | .sub d r => subUnder p d r s
  | .and d r => andUnder p d r s
  | .or d r => orUnder p d r s
  | .cmp d r => execCmp d r s
  | .movi d imm => execMovi d imm s
  | .addi d imm => addiUnder p d imm s
  | .subi d imm => subiUnder p d imm s
  | .andi d imm => andiUnder p d imm s
  | .ori d imm => oriUnder p d imm s
  | .load d b off => loadUnder p d b off s
  | .store d b off => storeUnder p d b off s
  | .jmp off => execJmp off s
  | .jz off => execJz off s
  | .jnz off => execJnz off s
  | .ret => retUnder p s

/-- One step of the machine with parameters `p`. -/
def stepUnder (p : Params W A σ) (s : State.Of W A σ) : ResultOf W A σ := cycle p (execUnder p) s

end Sys2Proof.Machine
end

