-- ==== Sys2Proof/Machine/Dispatch.lean ====
section
/-! DEFINITION. One arm per instruction: its meaning under the decided parameters. -/

namespace Sys2Proof.Machine

def exec (i : Instr) (s : State) : Host.Outcome State Fault Refusal :=
  match i with
  | .add d r => Sys2Proof.Machine.execAdd d r s
  | .sub d r => Sys2Proof.Machine.execSub d r s
  | .and d r => Sys2Proof.Machine.execAnd d r s
  | .or d r => Sys2Proof.Machine.execOr d r s
  | .cmp d r => Sys2Proof.Machine.execCmp d r s
  | .movi d imm => Sys2Proof.Machine.execMovi d imm s
  | .addi d imm => Sys2Proof.Machine.execAddi d imm s
  | .subi d imm => Sys2Proof.Machine.execSubi d imm s
  | .andi d imm => Sys2Proof.Machine.execAndi d imm s
  | .ori d imm => Sys2Proof.Machine.execOri d imm s
  | .load d b off => Sys2Proof.Machine.execLoad d b off s
  | .store d b off => Sys2Proof.Machine.execStore d b off s
  | .jmp off => Sys2Proof.Machine.execJmp off s
  | .jz off => Sys2Proof.Machine.execJz off s
  | .jnz off => Sys2Proof.Machine.execJnz off s
  | .ret => Sys2Proof.Machine.execRet s

end Sys2Proof.Machine
end

