-- ==== Sys2Proof/Machine/Step.lean ====
section
/-! DEFINITION. One step of Chunks-8 with the decided parameters (10_state.md R14), and placing one instruction
where the step fetches. -/

namespace Sys2Proof.Machine

/-- One step: next state, no further step of a faulted machine (R21), or a refusal (never). -/
def step (s : State) : Host.Outcome State Fault Refusal := cycle Config.params exec s

/-- `s` with the instruction word whose bits are `w` (those at `nbits` and above 0) stored at the pc, high byte
first (20_memory.md R26), as the loader would place it (log 12). -/
def State.withFetchWord (s : State) (nbits w : Nat) : State :=
  s.placeWord Config.params s.pc (BitVec.ofNat 16 (w % 2 ^ nbits))

end Sys2Proof.Machine
end

