-- ==== Sys2Proof/WellFormed.lean ====
section
/-! DEFINITION. What must hold of data whose type is wider than what the spec allows: an assembler line, whose
operands are numbers as a programmer writes them (30_encoding.md R61, R63), and the parameters (10_state.md
R22). `Instr` needs no check: its fields are the operand bits and every value of them is legal (R52). -/

namespace Sys2Proof

/-- The mnemonics of type A (R45). -/
inductive RegOp where
  | add | sub | and | or | cmp
  deriving DecidableEq, Repr

/-- The mnemonics of type B (R46). -/
inductive ImmOp where
  | movi | addi | subi | andi | ori
  deriving DecidableEq, Repr

/-- The mnemonics of type C (R47). -/
inductive MemOp where
  | load | store
  deriving DecidableEq, Repr

/-- The jumps of type D (R48). -/
inductive JumpOp where
  | jmp | jz | jnz
  deriving DecidableEq, Repr

/-- One line of assembler with its operands as written (R61): register numbers, immediates and memory offsets
are naturals, a jump's offset is a signed number of bytes (log 14). -/
inductive AsmLine where
  | typeA (op : RegOp) (d s : Nat)
  | typeB (op : ImmOp) (d imm : Nat)
  | typeC (op : MemOp) (d b off : Nat)
  | typeD (op : JumpOp) (off : Int)
  | ret
  deriving DecidableEq, Repr

/-- The operand ranges of R63: "An operand out of range is an assembly error, not a word." -/
def AsmLine.wellFormed : AsmLine → Bool
  | .typeA _ d s => d ≤ 7 && s ≤ 7
  | .typeB _ d imm => d ≤ 7 && imm ≤ 255
  | .typeC _ d b off => d ≤ 7 && b ≤ 7 && off ≤ 15
  | .typeD _ off => -128 ≤ off && off ≤ 127
  | .ret => true

/-- `RESET_PC` must be even (10_state.md R22, 70_reset_and_hazards.md R108). -/
def Params.wellFormed {W A : Nat} {σ : Type} (p : Params W A σ) : Bool := p.resetPc.toNat % 2 == 0

end Sys2Proof
end

