-- ==== Sys2Proof/Machine/Assembler.lean ====
section
/-! DEFINITION. Assembler lines: the words R63 gives them, the instruction a well-formed line stands for, and the
text of an instruction in the syntax of 30_encoding.md R61. No part of the machine's behaviour (D27). -/

namespace Sys2Proof.Machine

/-- The number R63 writes for a line: `op*4096 + …`. -/
def asmValue : AsmLine → Int
  | .typeA op d s => (match op with | .add => 0 | .sub => 1 | .and => 2 | .or => 3 | .cmp => 4) * 4096 + d * 256 + s * 16
  | .typeB op d imm => (match op with | .movi => 5 | .addi => 6 | .subi => 7 | .andi => 8 | .ori => 9) * 4096 + d * 256 + imm
  | .typeC op d b off => (match op with | .load => 10 | .store => 11) * 4096 + d * 256 + b * 16 + off
  | .typeD op off => (match op with | .jmp => 12 | .jz => 13 | .jnz => 14) * 4096 + off % 256
  | .ret => 0xF000

/-- The instruction of a line whose operands are in range. -/
def asmInstr : AsmLine → Instr
  | .typeA .add d s => .add (BitVec.ofNat 3 d) (BitVec.ofNat 3 s)
  | .typeA .sub d s => .sub (BitVec.ofNat 3 d) (BitVec.ofNat 3 s)
  | .typeA .and d s => .and (BitVec.ofNat 3 d) (BitVec.ofNat 3 s)
  | .typeA .or d s => .or (BitVec.ofNat 3 d) (BitVec.ofNat 3 s)
  | .typeA .cmp d s => .cmp (BitVec.ofNat 3 d) (BitVec.ofNat 3 s)
  | .typeB .movi d imm => .movi (BitVec.ofNat 3 d) (BitVec.ofNat 8 imm)
  | .typeB .addi d imm => .addi (BitVec.ofNat 3 d) (BitVec.ofNat 8 imm)
  | .typeB .subi d imm => .subi (BitVec.ofNat 3 d) (BitVec.ofNat 8 imm)
  | .typeB .andi d imm => .andi (BitVec.ofNat 3 d) (BitVec.ofNat 8 imm)
  | .typeB .ori d imm => .ori (BitVec.ofNat 3 d) (BitVec.ofNat 8 imm)
  | .typeC .load d b off => .load (BitVec.ofNat 3 d) (BitVec.ofNat 3 b) (BitVec.ofNat 4 off)
  | .typeC .store d b off => .store (BitVec.ofNat 3 d) (BitVec.ofNat 3 b) (BitVec.ofNat 4 off)
  | .typeD .jmp off => .jmp (BitVec.ofInt 8 off)
  | .typeD .jz off => .jz (BitVec.ofInt 8 off)
  | .typeD .jnz off => .jnz (BitVec.ofInt 8 off)
  | .ret => .ret

/-- The assembler: an operand out of range is an assembly error, not a word (R63). -/
def assemble (l : AsmLine) : Option Instr := if l.wellFormed then some (asmInstr l) else none

/-- One hexadecimal digit, upper case. -/
def hexDigit (v : BitVec 4) : Char := Char.ofNat (if v.toNat < 10 then 48 + v.toNat else 55 + v.toNat)

/-- A byte as `0x` and two hexadecimal digits (R61, numbers). -/
def hexText (v : Byte) : String := "0x".push (hexDigit (v.extractLsb' 4 4)) |>.push (hexDigit (v.extractLsb' 0 4))

/-- A register's name (R61, registers). -/
def regText (r : RegId) : String := "R".push (hexDigit (r.setWidth 4))

/-- A jump's signed offset with its explicit sign (R61, type D). -/
def offText (off : Byte) : String := if off.msb then "-" ++ hexText (-off) else "+" ++ hexText off

/-- Type A text, `MNEMONIC Rd, Rs`. -/
def textA (name : String) (d s : RegId) : String := name ++ " " ++ regText d ++ ", " ++ regText s

/-- Type B text, `MNEMONIC Rd, #imm`. -/
def textB (name : String) (d : RegId) (imm : Byte) : String := name ++ " " ++ regText d ++ ", #" ++ hexText imm

/-- Type C text, `MNEMONIC Rd, [Rb + off]`, the offset in decimal. -/
def textC (name : String) (d b : RegId) (off : Off4) : String :=
  name ++ " " ++ regText d ++ ", [" ++ regText b ++ " + " ++ toString off.toNat ++ "]"

/-- An instruction's assembler text (R61; STORE, CMP and RET by the spec's own analogy, D27). -/
def asmText : Instr → String
  | .add d s => textA "ADD" d s
  | .sub d s => textA "SUB" d s
  | .and d s => textA "AND" d s
  | .or d s => textA "OR" d s
  | .cmp d s => textA "CMP" d s
  | .movi d imm => textB "MOVI" d imm
  | .addi d imm => textB "ADDI" d imm
  | .subi d imm => textB "SUBI" d imm
  | .andi d imm => textB "ANDI" d imm
  | .ori d imm => textB "ORI" d imm
  | .load d b off => textC "LOAD" d b off
  | .store d b off => textC "STORE" d b off
  | .jmp off => "JMP " ++ offText off
  | .jz off => "JZ " ++ offText off
  | .jnz off => "JNZ " ++ offText off
  | .ret => "RET"

end Sys2Proof.Machine
end

