-- ==== Sys2Proof/Machine/Equality.lean ====
section
/-! DEFINITION. Equality of states as 10_state.md R24 says it, and a test that decides it. The `=` of `State` is
finer: it also compares the model's own fields and how memory is listed. -/

namespace Sys2Proof.Machine

variable {W A : Nat} {σ : Type}

/-- R24: two states are equal when `x[0..7]`, `pc`, `Z`, every `mem[a]` and `fault` are. -/
def SameState (s t : State.Of W A σ) : Prop :=
  (∀ r, s.reg r = t.reg r) ∧ s.pc = t.pc ∧ s.z = t.z ∧ (∀ a, s.byte a = t.byte a) ∧ s.fault = t.fault

/-- R24 under any parameters: where a parameter adds state, that too, the instruction memory if `UNIFIED_MEMORY`
is false and S if there is a `RET_MODEL` (log 20). With the decided parameters it is `SameState`. -/
def SameUnder (p : Params W A σ) (s t : State.Of W A σ) : Prop :=
  SameState s t ∧ (p.unifiedMemory = false → ∀ a : BitVec A, s.code.read a.toNat = t.code.read a.toNat) ∧
    (p.retModel.isSome → s.stack = t.stack)

/-- Whether two memories have the same byte at every address below a bound: only listed cells can differ. -/
def Memory.same (size : Nat) (m m' : Memory) : Bool :=
  (m ++ m').all fun c => decide (size ≤ c.1) || m.read c.1 == m'.read c.1

/-- The test of `SameState`. -/
def sameState (s t : State.Of W A σ) : Bool :=
  s.regs == t.regs && s.pc == t.pc && s.z == t.z && s.mem.same (2 ^ A) t.mem && s.fault == t.fault

/-- The test of `SameUnder`. -/
def sameUnder [DecidableEq σ] (p : Params W A σ) (s t : State.Of W A σ) : Bool :=
  sameState s t && (p.unifiedMemory || s.code.same (2 ^ A) t.code) && (p.retModel.isNone || s.stack == t.stack)

end Sys2Proof.Machine
end

