-- ==== Sys2Proof/Safety.lean ====
section
/-! DEFINITION. The terms claims use: launch premises (70_reset_and_hazards.md R110), the end of a run (R112,
R113), which registers an instruction names (10_state.md R12) and what a frame leaves unchanged. -/

namespace Sys2Proof.Machine

variable {W A : Nat} {σ : Type}

/-- A state right after reset, whatever the registers, the flag and the memory hold (R107, R110). -/
def Launch (p : Params W A σ) (s : State.Of W A σ) : Prop :=
  s.pc = p.resetPc ∧ s.fault = none ∧ s.ioLog = [] ∧ s.stack = p.retModel.map (·.reset)

/-- The decided `END` under any parameters: the run has ended normally at `s` (R112): no fault, and the step
yields `s` again, equality being R24's. -/
def endedNormallyUnder [DecidableEq σ] (p : Params W A σ) (s : State.Of W A σ) : Bool :=
  match s.fault, stepUnder p s with
  | none, .next t => sameUnder p s t
  | _, _ => false

/-- The decided `END` of the decided machine. -/
def endedNormally (s : State) : Bool := endedNormallyUnder Config.params s

/-- The run has ended abnormally at `s` (R112). -/
def endedAbnormally (s : State.Of W A σ) : Bool := s.fault.isSome

/-- What an executor under fuel reports (R113). -/
inductive RunEnd (α : Type) where
  | normal (s : α)
  | abnormal (s : α)
  | outOfFuel (s : α)
  deriving DecidableEq, Repr

/-- The run's first end within `fuel` steps (R112, R113), under any parameters and any `END` (R5). -/
def runFuelUnder (p : Params W A σ) (ended : State.Of W A σ → Bool) :
    Nat → State.Of W A σ → RunEnd (State.Of W A σ)
  | fuel, s =>
    if endedAbnormally s then .abnormal s
    else if ended s then .normal s
    else
      match fuel, stepUnder p s with
      | fuel + 1, .next t => runFuelUnder p ended fuel t
      | _, _ => .outOfFuel s

/-- The executor of the decided machine. -/
def runFuel (fuel : Nat) (s : State) : RunEnd State := runFuelUnder Config.params endedNormally fuel s

/-- The register an instruction writes (R12, column "writes"). -/
def destReg : Instr → Option RegId
  | .add d _ | .sub d _ | .and d _ | .or d _ => some d
  | .movi d _ | .addi d _ | .subi d _ | .andi d _ | .ori d _ => some d
  | .load d _ _ => some d
  | .cmp _ _ | .store _ _ _ | .jmp _ | .jz _ | .jnz _ | .ret => none

/-- The registers an instruction reads (R12, column "reads"). -/
def readRegs : Instr → List RegId
  | .add d s | .sub d s | .and d s | .or d s | .cmp d s => [d, s]
  | .movi _ _ => []
  | .addi d _ | .subi d _ | .andi d _ | .ori d _ => [d]
  | .load _ b _ => [b]
  | .store d b _ => [b, d]
  | .jmp _ | .jz _ | .jnz _ | .ret => []

/-- `sext(off8)` as R51 (30_encoding.md) writes it. -/
def sext8 (off : Byte) : Int := if off.toNat ≤ 127 then (off.toNat : Int) else (off.toNat : Int) - 256

/-- A reserved bit of the word's format is 1 (the table of 93_implementation_defined.md U1, 30_encoding.md R56),
the format by the word's top four bits. -/
abbrev SetsReservedBit (iw : Word) : Prop :=
  (iw.toNat / 4096 ≤ 4 ∧ iw &&& 0x088F ≠ 0) ∨
    (5 ≤ iw.toNat / 4096 ∧ iw.toNat / 4096 ≤ 9 ∧ iw &&& 0x0800 ≠ 0) ∨
    (10 ≤ iw.toNat / 4096 ∧ iw.toNat / 4096 ≤ 11 ∧ iw &&& 0x0880 ≠ 0) ∨
    (12 ≤ iw.toNat / 4096 ∧ iw &&& 0x0F00 ≠ 0)

/-- Every byte of memory reads in `t` what it read in `s`, and so does every byte of the instruction memory. -/
def MemSame (s t : State.Of W A σ) : Prop := t.mem = s.mem ∧ t.code = s.code ∧ ∀ a, t.byte a = s.byte a

/-- What only a raise, an `io` access or a RET under a `RET_MODEL` writes: the fault marker, the `io` history and
the stack. -/
def RestSame (s t : State.Of W A σ) : Prop := t.fault = s.fault ∧ t.ioLog = s.ioLog ∧ t.stack = s.stack

/-- The frame of an instruction whose only destination is `x[d]`: the pc goes to the next instruction, every
other register, the flag, all of memory, the fault marker, the `io` history and the stack are unchanged. -/
def WritesOnlyReg (d : RegId) (s t : State.Of W A σ) : Prop :=
  (∀ r, r ≠ d → t.reg r = s.reg r) ∧ t.pc = s.pc + 2 ∧ t.z = s.z ∧ MemSame s t ∧ RestSame s t

/-- The frame of a jump: every register, the flag, all of memory, the fault marker, the `io` history and the stack
are unchanged; the pc may change. -/
def WritesOnlyPc (s t : State.Of W A σ) : Prop :=
  (∀ r, t.reg r = s.reg r) ∧ t.z = s.z ∧ MemSame s t ∧ RestSame s t

end Sys2Proof.Machine
end

