-- ==== Sys2Proof/Certificates/Slice0/Obligations.lean ====
section
/-! DEFINITION. The statements for the provers. Each docstring names the rule of spec/ it formalises. The machine
is the one with the decided parameters unless a statement quantifies over `Params`: then it holds for every value of
every parameter of 00_scope.md R5, the widths `W` of a register and `A` of an address among them. -/

open Sys2Proof Sys2Proof.Machine

/-! ### Encoding -/

/-- 30_encoding.md R54 and R63: decoding an encoded instruction gives it back, with every operand at every
value, alone and at the head of a list of bytes. -/
def Obligations.DecodeOfEncodeGivesTheInstruction : Prop :=
  ∀ (i : Instr) (rest : List Byte),
    decodeWord (encode i) = .ok i ∧ decode (encodeBytes i ++ rest) = .ok (i, rest)

/-- R54, R48: a legal word is the encoding of what it decodes to, but for a RET with a low byte other than 0. With
`RESERVED_NONZERO` = `fault` decoding is this; with `ignore` every word decodes, to what it decodes to with its
reserved bits cleared (log 16). -/
def Obligations.LegalWordIsItsInstructionsEncoding : Prop :=
  (∀ (iw : Word) (i : Instr), decodeWord iw = .ok i → encode i = iw ∨ (i = .ret ∧ firstByte iw = 0xF0)) ∧
  ∀ iw : Word, decodeWith .fault iw = decodeWord iw ∧
    ∃ i, decodeWith .ignore iw = .ok i ∧ decodeWord (iw &&& ~~~reservedMask (formatOf (opField iw))) = .ok i

/-- R54: `iw` is instruction I exactly when `iw AND mask(I) = match(I)`, the masks and matches of
opcode_table.json. -/
def Obligations.WordIsRowExactlyWhenMaskMatches : Prop :=
  ∀ iw : Word,
    ((∃ d r, decodeWord iw = .ok (.add d r)) ↔ iw &&& 0xF88F = 0x0000) ∧
    ((∃ d r, decodeWord iw = .ok (.sub d r)) ↔ iw &&& 0xF88F = 0x1000) ∧
    ((∃ d r, decodeWord iw = .ok (.and d r)) ↔ iw &&& 0xF88F = 0x2000) ∧
    ((∃ d r, decodeWord iw = .ok (.or d r)) ↔ iw &&& 0xF88F = 0x3000) ∧
    ((∃ d r, decodeWord iw = .ok (.cmp d r)) ↔ iw &&& 0xF88F = 0x4000) ∧
    ((∃ d k, decodeWord iw = .ok (.movi d k)) ↔ iw &&& 0xF800 = 0x5000) ∧
    ((∃ d k, decodeWord iw = .ok (.addi d k)) ↔ iw &&& 0xF800 = 0x6000) ∧
    ((∃ d k, decodeWord iw = .ok (.subi d k)) ↔ iw &&& 0xF800 = 0x7000) ∧
    ((∃ d k, decodeWord iw = .ok (.andi d k)) ↔ iw &&& 0xF800 = 0x8000) ∧
    ((∃ d k, decodeWord iw = .ok (.ori d k)) ↔ iw &&& 0xF800 = 0x9000) ∧
    ((∃ d b o, decodeWord iw = .ok (.load d b o)) ↔ iw &&& 0xF880 = 0xA000) ∧
    ((∃ d b o, decodeWord iw = .ok (.store d b o)) ↔ iw &&& 0xF880 = 0xB000) ∧
    ((∃ o, decodeWord iw = .ok (.jmp o)) ↔ iw &&& 0xFF00 = 0xC000) ∧
    ((∃ o, decodeWord iw = .ok (.jz o)) ↔ iw &&& 0xFF00 = 0xD000) ∧
    ((∃ o, decodeWord iw = .ok (.jnz o)) ↔ iw &&& 0xFF00 = 0xE000) ∧
    (decodeWord iw = .ok .ret ↔ iw &&& 0xFF00 = 0xF000)

/-- R57 (decision D9): a word with any reserved bit non-zero is an illegal instruction. Decode rejects it, and
at an even pc of a machine without a fault the step raises `IllegalInstruction(pc, iw)` and nothing executes. -/
def Obligations.ReservedBitSetRaisesIllegalInstruction : Prop :=
  (∀ iw : Word, SetsReservedBit iw → decodeWord iw = .error (.reservedNonzero iw)) ∧
  ∀ s : State, s.fault = none → s.pc.toNat % 2 = 0 → SetsReservedBit (s.wordAt s.pc) →
    step s = .next (s.raise (.illegalInstruction s.pc (s.wordAt s.pc)))

/-- R63: the assembler gives a line with operands in range the word of the formula; an operand out of range is
an assembly error, not a word. -/
def Obligations.AssembledWordFollowsTheFormula : Prop :=
  ∀ l : AsmLine,
    (l.wellFormed = true → ∃ i, assemble l = some i ∧ ((encode i).toNat : Int) = asmValue l) ∧
    (l.wellFormed = false → assemble l = none)

/-- 95_test_vectors.md S1 to S5 and section 2.6: words of the spec decode to what it says they are. -/
def Obligations.WordsOfTheSpecDecode : Prop :=
  decodeWord 0x0310 = .ok (.add 3 1) ∧ decodeWord 0x543C = .ok (.movi 4 0x3C) ∧
  decodeWord 0xA25A = .ok (.load 2 5 10) ∧ decodeWord 0xD010 = .ok (.jz 0x10) ∧
  decodeWord 0xC0F8 = .ok (.jmp 0xF8) ∧ decodeWord 0x4770 = .ok (.cmp 7 7) ∧
  decodeWord 0xA77F = .ok (.load 7 7 15) ∧ decodeWord 0xF0FF = .ok .ret ∧
  decodeWord 0xE25A = .error (.reservedNonzero 0xE25A) ∧ decodeWord 0x4F70 = .error (.reservedNonzero 0x4F70)

/-! ### The step -/

/-- 10_state.md R14: when no fault is set, the pc is even and the two bytes at it, high byte first, decode to an
instruction, the step is that instruction's `exec`, and nothing is added around it. Under any parameters the same
of the word the fetch gives. -/
def Obligations.StepRunsTheDecodedInstruction : Prop :=
  (∀ (s : State) (i : Instr), s.fault = none → s.pc.toNat % 2 = 0 →
    decodeWord (s.byte s.pc ++ s.byte (s.pc + 1)) = .ok i → step s = exec i s) ∧
  ∀ (W A : Nat) (σ : Type) (p : Params W A σ) (s : State.Of W A σ) (iw : Word) (i : Instr),
    s.fault = none → s.pc.toNat % 2 = 0 → fetch p s = .ok iw → decodeWith p.reservedNonzero iw = .ok i →
    stepUnder p s = execUnder p i s

/-- 20_memory.md R29 (decision D14): at an odd pc the step raises `MisalignedFetch(pc)`, whatever memory holds. -/
def Obligations.OddPcRaisesMisalignedFetch : Prop :=
  ∀ (s : State), s.fault = none → s.pc.toNat % 2 = 1 → step s = .next (s.raise (.misalignedFetch s.pc))

/-- 10_state.md section 7: a machine with a fault has no further step. That `step` then answers the host's fault
outcome with the recorded fault is the model's choice (log 4). -/
def Obligations.FaultedMachineHasNoFurtherStep : Prop :=
  ∀ (s : State) (f : Fault), s.fault = some f → step s = .fault f

/-- 70_reset_and_hazards.md R117: a machine with fault = none always takes its next step. -/
def Obligations.UnfaultedMachineAlwaysSteps : Prop :=
  ∀ s : State, s.fault = none → ∃ t, step s = .next t

/-- 60_exceptions.md R92 (decision D17), under any parameters: a step that raises a fault sets the marker to it
and changes no register, flag, memory byte or pc; the state it leaves has no further step, and is no normal end. -/
def Obligations.RaisingChangesOnlyTheFaultMarker : Prop :=
  ∀ (W A : Nat) (σ : Type) [DecidableEq σ] (p : Params W A σ) (s t : State.Of W A σ) (f : Fault.Of A),
    stepUnder p s = .next t → t.fault = some f →
    t = { s with fault := some f } ∧ (∀ u, stepUnder p t ≠ .next u) ∧ endedNormallyUnder p t = false

/-- 60_exceptions.md section 1 (the table of R93): with the decided parameters a step raises a fault in exactly
three ways, an odd pc, a reserved bit set, or RET, and the fault records what the table says. -/
def Obligations.DecidedMachineFaultsInThreeWays : Prop :=
  ∀ (s t : State) (f : Fault), step s = .next t →
    (t.fault = some f ↔
      (s.pc.toNat % 2 = 1 ∧ f = .misalignedFetch s.pc) ∨
      (s.pc.toNat % 2 = 0 ∧ SetsReservedBit (s.wordAt s.pc) ∧ f = .illegalInstruction s.pc (s.wordAt s.pc)) ∨
      (s.pc.toNat % 2 = 0 ∧ s.byte s.pc = 0xF0 ∧ f = .retStackUndefined s.pc))

/-- 60_exceptions.md section 4 (R96; decision D30), under any parameters: the checks of one step are made in this order and
the first that fails is the fault reported; at most one fault is recorded in a run, since it is terminal.
Which word the fetch gives, and that `MemMap` is checked, for other values of `UNIFIED_MEMORY` and `FETCH_BIG_ENDIAN` is
the model's (logs 17, 18). -/
def Obligations.ChecksAreMadeInTheSpecsOrder : Prop :=
  ∀ (W A : Nat) (σ : Type) (p : Params W A σ) (s : State.Of W A σ),
    (s.fault = none →
      (s.pc.toNat % 2 = 1 → stepUnder p s = .next (s.raise (.misalignedFetch s.pc))) ∧
      (s.pc.toNat % 2 = 0 → (p.memMap s.pc = .io ∨ p.memMap s.pc = .unmapped) →
        stepUnder p s = .next (s.raise (.accessFault s.pc .fetch))) ∧
      (s.pc.toNat % 2 = 0 → (p.memMap s.pc = .ram ∨ p.memMap s.pc = .rom) →
        (p.memMap (s.pc + 1) = .io ∨ p.memMap (s.pc + 1) = .unmapped) →
        stepUnder p s = .next (s.raise (.accessFault (s.pc + 1) .fetch))) ∧
      (s.pc.toNat % 2 = 0 → (p.memMap s.pc = .ram ∨ p.memMap s.pc = .rom) →
        (p.memMap (s.pc + 1) = .ram ∨ p.memMap (s.pc + 1) = .rom) →
        (p.reservedNonzero = .fault → SetsReservedBit (codeWord p s s.pc) →
          stepUnder p s = .next (s.raise (.illegalInstruction s.pc (codeWord p s s.pc)))) ∧
        (decodeWith p.reservedNonzero (codeWord p s s.pc) = .ok .ret → p.retModel = none →
          stepUnder p s = .next (s.raise (.retStackUndefined s.pc))) ∧
        (∀ d b off, decodeWith p.reservedNonzero (codeWord p s s.pc) = .ok (.load d b off) →
          p.memMap (effAddr s b off) = .unmapped →
          stepUnder p s = .next (s.raise (.accessFault (effAddr s b off) .read))) ∧
        (∀ d b off, decodeWith p.reservedNonzero (codeWord p s s.pc) = .ok (.store d b off) →
          (p.memMap (effAddr s b off) = .rom ∨ p.memMap (effAddr s b off) = .unmapped) →
          stepUnder p s = .next (s.raise (.accessFault (effAddr s b off) .write))))) ∧
    (s.fault ≠ none → ∀ t, stepUnder p s ≠ .next t)

/-- 60_exceptions.md sections 1 and 6 and 00_scope.md section 4: every instruction is available at all times. Under
any parameters it answers a next state in every state (log 4). Its result is the one of section 2 of 40_alu_register.md,
41_alu_immediate.md, 42_memory_access.md and 43_control_flow.md (RET: section 4), which write register arithmetic
mod 256. That it is mod 2^REG_WIDTH at another width is the model's reading of 00_scope.md R7 (logs 7, 19); that an
immediate or a loaded byte is zero-extended into such a register, or cut, and STORE writes the low byte of it is the
model's choice (log 19). -/
def Obligations.EveryInstructionAnswersInEveryState : Prop :=
  ∀ (W A : Nat) (σ : Type) (p : Params W A σ) (i : Instr) (s : State.Of W A σ), ∃ t, execUnder p i s = .next t ∧
    match i with
    | .add d r => (t.reg d).toNat = ((s.reg d).toNat + (s.reg r).toNat) % 2 ^ W
    | .sub d r => ((t.reg d).toNat : Int) = (((s.reg d).toNat : Int) - (s.reg r).toNat) % (2 ^ W : Nat)
    | .and d r => (t.reg d).toNat = (s.reg d).toNat &&& (s.reg r).toNat
    | .or d r => (t.reg d).toNat = (s.reg d).toNat ||| (s.reg r).toNat
    | .cmp d r => t.z = true ↔ s.reg d = s.reg r
    | .movi d imm => (t.reg d).toNat = imm.toNat % 2 ^ W
    | .addi d imm => (t.reg d).toNat = ((s.reg d).toNat + imm.toNat) % 2 ^ W
    | .subi d imm => ((t.reg d).toNat : Int) = (((s.reg d).toNat : Int) - imm.toNat) % (2 ^ W : Nat)
    | .andi d imm => (t.reg d).toNat = (s.reg d).toNat &&& imm.toNat % 2 ^ W
    | .ori d imm => (t.reg d).toNat = (s.reg d).toNat ||| imm.toNat % 2 ^ W
    | .load d b off => p.memMap (effAddr s b off) = .ram ∨ p.memMap (effAddr s b off) = .rom →
        (t.reg d).toNat = (s.byte (effAddr s b off)).toNat % 2 ^ W
    | .store d b off => p.memMap (effAddr s b off) = .ram →
        (t.byte (effAddr s b off)).toNat = (s.reg d).toNat % 256
    | .jmp off => t.pc = jumpTarget s.pc off
    | .jz off => t.pc = if s.z = true then jumpTarget s.pc off else s.pc + 2
    | .jnz off => t.pc = if s.z = true then s.pc + 2 else jumpTarget s.pc off
    | .ret => p.retModel = none → t = s.raise (.retStackUndefined s.pc)

/-- 00_scope.md section 4: the machine with the decided parameters is the parameterised machine at the values of
R5's table, its `END` and its executor too. -/
def Obligations.DecidedMachineIsTheParameterisedOne : Prop :=
  (∀ i s, exec i s = execUnder Config.params i s) ∧ (∀ s, step s = stepUnder Config.params s) ∧
  (∀ s, endedNormally s = endedNormallyUnder Config.params s) ∧
  (∀ n s, runFuel n s = runFuelUnder Config.params endedNormally n s) ∧
  Config.params.unifiedMemory = true ∧ Config.params.fetchBigEndian = true ∧ Config.params.aluWritesZ = false ∧
  Config.params.reservedNonzero = .fault ∧ Config.params.retModel = none ∧ Config.params.resetPc = 0x00 ∧
  ∀ a, Config.params.memMap a = .ram

/-! ### Invariants and whole-machine rules -/

/-- 20_memory.md section 1: memory stays in its canonical form, which says too that no cell lies outside the 256
addresses. The form is the model's (an unlisted byte reads 0, log 3). -/
def Obligations.StepKeepsMemoryCanonical : Prop :=
  ∀ s t : State, s.mem.wf → step s = .next t → t.mem.wf

/-- The same under any parameters, at any address width, of memory and of the instruction memory. -/
def Obligations.StepUnderAnyParametersKeepsMemoryCanonical : Prop :=
  ∀ (W A : Nat) (σ : Type) (p : Params W A σ) (s t : State.Of W A σ),
    s.mem.wfAt (2 ^ A) ∧ s.code.wfAt (2 ^ A) → stepUnder p s = .next t → t.mem.wfAt (2 ^ A) ∧ t.code.wfAt (2 ^ A)

/-- 10_state.md section 10 (R24): two canonical memories are equal exactly when every byte of them is; the test the
end of a run uses is R24's equality, registers, pc, Z, every byte of memory and fault; where memories are canonical
and the model's own fields agree, it is equality of the data. Nothing else tells states apart: under any parameters
two states that are equal so step to states that are equal so (the number of `io` events before them, which an `io`
read's free value is drawn at, being the same: log 6). -/
def Obligations.StatesAreEqualAsTheSpecSays : Prop :=
  (∀ m m' : Memory, m.wf → m'.wf → ((∀ a : Addr, m.read a.toNat = m'.read a.toNat) ↔ m = m')) ∧
  (∀ s t : State, sameUnder Config.params s t = true ↔
    (∀ r, s.reg r = t.reg r) ∧ s.pc = t.pc ∧ s.z = t.z ∧ (∀ a, s.byte a = t.byte a) ∧ s.fault = t.fault) ∧
  (∀ s t : State, s.mem.wf → t.mem.wf → s.ioLog = t.ioLog → s.code = t.code → (SameState s t ↔ s = t)) ∧
  ∀ (W A : Nat) (σ : Type) (p : Params W A σ) (s s' t : State.Of W A σ),
    SameUnder p s s' → s.ioLog.length = s'.ioLog.length → stepUnder p s = .next t →
    ∃ t', stepUnder p s' = .next t' ∧ SameUnder p t t' ∧ t.ioLog.length = t'.ioLog.length

/-- 10_state.md section 2 (R15) and 43_control_flow.md section 3: the pc turns odd only by a taken jump with an
odd offset. -/
def Obligations.PcTurnsOddOnlyByATakenOddJump : Prop :=
  ∀ s t : State, s.pc.toNat % 2 = 0 → step s = .next t → t.pc.toNat % 2 = 1 →
    ∃ off : Byte, off.toNat % 2 = 1 ∧ t.pc = jumpTarget s.pc off ∧
      (decodeWord (s.wordAt s.pc) = .ok (.jmp off) ∨
        (decodeWord (s.wordAt s.pc) = .ok (.jz off) ∧ s.z = true) ∨
        (decodeWord (s.wordAt s.pc) = .ok (.jnz off) ∧ s.z = false))

/-- 43_control_flow.md R87 (decision D14): a target is even exactly when the offset is even; a taken jump with
an odd offset completes and the next step raises `MisalignedFetch` with that pc; an untaken one is harmless. -/
def Obligations.OddJumpCompletesAndTheNextStepFaults : Prop :=
  ∀ (s : State) (off : Byte), s.pc.toNat % 2 = 0 →
    ((jumpTarget s.pc off).toNat % 2 = 0 ↔ off.toNat % 2 = 0) ∧
    (s.fault = none → off.toNat % 2 = 1 →
      ∀ i, i = .jmp off ∨ (i = .jz off ∧ s.z = true) ∨ (i = .jnz off ∧ s.z = false) →
      ∃ t, exec i s = .next t ∧ t.pc = jumpTarget s.pc off ∧ t.fault = none ∧
        step t = .next (t.raise (.misalignedFetch (jumpTarget s.pc off)))) ∧
    (∀ i, (i = .jz off ∧ s.z = false) ∨ (i = .jnz off ∧ s.z = true) →
      ∃ t, exec i s = .next t ∧ t.pc.toNat % 2 = 0 ∧ t.fault = s.fault)

/-- 10_state.md section 3 (R17; decision D7) and 40_alu_register.md section 2 (R69): who writes and who reads Z, under any parameters: CMP always writes it, ADD,
SUB, AND, OR, ADDI, SUBI, ANDI, ORI write it from their result exactly when `ALU_WRITES_Z`, nothing else does;
the setting changes nothing else; JZ and JNZ read it, going to their target or to the next instruction by it, and
nothing else depends on it; and after a CMP neither the setting nor the old flag makes a difference. R17 speaks of the
8-bit result and R69 of the difference mod 256: that at another `REG_WIDTH` Z is that of the result at its own width,
and CMP's whether the whole registers are equal, is the model's reading (logs 7, 19). -/
def Obligations.ZeroFlagWritersAndReaders : Prop :=
  ∀ (W A : Nat) (σ : Type) (p : Params W A σ) (i : Instr) (s t : State.Of W A σ), execUnder p i s = .next t →
    (t.z =
      match i with
      | .cmp d r => decide (s.reg d = s.reg r)
      | .add d _ | .sub d _ | .and d _ | .or d _ | .addi d _ | .subi d _ | .andi d _ | .ori d _ =>
        if p.aluWritesZ then decide (t.reg d = 0) else s.z
      | .movi _ _ | .load _ _ _ | .store _ _ _ | .jmp _ | .jz _ | .jnz _ | .ret => s.z) ∧
    (∀ b u, execUnder { p with aluWritesZ := b } i s = .next u → u = { t with z := u.z }) ∧
    (∀ d r, i = .cmp d r → ∀ b k u, execUnder { p with aluWritesZ := b } i { s with z := k } = .next u → u = t) ∧
    (∀ off, i = .jz off ∨ i = .jnz off → ∃ u w,
      execUnder p i { s with z := true } = .next u ∧ execUnder p i { s with z := false } = .next w ∧
      (i = .jz off → u.pc = jumpTarget s.pc off ∧ w.pc = s.pc + 2) ∧
      (i = .jnz off → u.pc = s.pc + 2 ∧ w.pc = jumpTarget s.pc off) ∧
      (8 ≤ A → off ≠ 0 → u.pc ≠ w.pc)) ∧
    ((∀ off, i ≠ .jz off ∧ i ≠ .jnz off) → ∀ b u, execUnder p i { s with z := b } = .next u → u = { t with z := u.z })

/-- 10_state.md R12, under any parameters: no instruction reads or writes a register it does not name, and no
register is hard-wired. `destReg` and `readRegs` are the rule's table. -/
def Obligations.RegisterUseFollowsTheTable : Prop :=
  ∀ (W A : Nat) (σ : Type),
  (∀ (p : Params W A σ) (i : Instr) (s t : State.Of W A σ), execUnder p i s = .next t →
    (∀ r, destReg i ≠ some r → t.reg r = s.reg r) ∧
    ∀ s' t' : State.Of W A σ, s'.pc = s.pc → s'.z = s.z → s'.mem = s.mem → RestSame s s' →
      (∀ r ∈ readRegs i, s'.reg r = s.reg r) → execUnder p i s' = .next t' →
      t'.pc = t.pc ∧ t'.z = t.z ∧ t'.mem = t.mem ∧ RestSame t t' ∧
        (t.fault = none → ∀ r, destReg i = some r → t'.reg r = t.reg r)) ∧
  ∀ (s : State.Of W A σ) (r : RegId) (v : BitVec W), (s.setReg r v).reg r = v

/-- 10_state.md section 1, 42_memory_access.md section 2, under any parameters: no instruction but STORE changes
memory, and STORE changes no byte but the one at its effective address. No instruction changes the instruction
memory of a machine with `UNIFIED_MEMORY` = false (log 17). -/
def Obligations.OnlyStoreWritesMemory : Prop :=
  ∀ (W A : Nat) (σ : Type) (p : Params W A σ) (i : Instr) (s t : State.Of W A σ), execUnder p i s = .next t →
    ((∀ d b off, i ≠ .store d b off) → t.mem = s.mem) ∧
    (∀ d b off, i = .store d b off → ∀ a, a ≠ effAddr s b off → t.byte a = s.byte a) ∧ t.code = s.code

/-- 20_memory.md section 5 (R34), under any parameters: a step adds at most one event to the end of the `io`
history, and only for a LOAD or STORE at an `io` address; the read's value is what the register gets, the write
leaves memory as it is. The history's form is the model's (log 6). -/
def Obligations.IoHistoryGrowsByTheStepsAccess : Prop :=
  ∀ (W A : Nat) (σ : Type) (p : Params W A σ) (s t : State.Of W A σ), stepUnder p s = .next t →
    t.ioLog = s.ioLog ∨
    (∃ d b off v, decodeWith p.reservedNonzero (codeWord p s s.pc) = .ok (.load d b off) ∧
      p.memMap (effAddr s b off) = .io ∧
      t.ioLog = s.ioLog ++ [.read (effAddr s b off) v] ∧ t.reg d = regOfByte W v ∧ t.mem = s.mem) ∨
    (∃ d b off, decodeWith p.reservedNonzero (codeWord p s s.pc) = .ok (.store d b off) ∧
      p.memMap (effAddr s b off) = .io ∧
      t.ioLog = s.ioLog ++ [.write (effAddr s b off) (byteOfReg (s.reg d))] ∧ t.mem = s.mem)

/-- 20_memory.md section 5 (R33): with the decided `MemMap` no step touches the `io` history (log 6), so the
states of the decided machine are told apart by the items of R24 alone: states equal by R24 step to states equal by
R24, whatever the model's own fields hold. -/
def Obligations.DecidedMachineNeverTouchesIo : Prop :=
  ∀ s t : State, step s = .next t → t.ioLog = s.ioLog ∧ t.code = s.code ∧
    ∀ s', SameState s s' → ∃ t', step s' = .next t' ∧ SameState t t'

/-! ### Reset and the loader -/

/-- 70_reset_and_hazards.md R107 (decision D20): after reset pc = 0x00 and fault = none; the registers, Z and
memory are arbitrary: a launch state exists for every choice of them, and the reset state is one. -/
def Obligations.ResetLeavesPcAndFaultAndNothingElse : Prop :=
  State.reset.pc = 0x00 ∧ State.reset.fault = none ∧ Launch Config.params State.reset ∧
  ∀ (regs : Vector Byte 8) (z : Bool) (mem : Memory),
    ∃ s, Launch Config.params s ∧ s.pc = 0x00 ∧ s.fault = none ∧ s.regs = regs ∧ s.z = z ∧ s.mem = mem

/-- The model's own reset values: registers 0 (log 1), Z 0 (log 2), every byte of memory 0 (log 3), no `io`
event (log 6), memory in canonical form. -/
def Obligations.ResetValuesTheModelChose : Prop :=
  (∀ r, State.reset.reg r = 0) ∧ State.reset.z = false ∧ (∀ a, State.reset.byte a = 0) ∧
    State.reset.ioLog = [] ∧ State.reset.mem.wf

/-- 70_reset_and_hazards.md R108 (decision D20): execution starts with a normal step at `RESET_PC`, which is
even: from every launch state the first step runs the instruction at addresses 0x00 and 0x01. -/
def Obligations.FirstStepRunsTheInstructionAtResetPc : Prop :=
  Config.params.wellFormed = true ∧
  ∀ (s : State) (i : Instr), Launch Config.params s → decodeWord (s.byte 0x00 ++ s.byte 0x01) = .ok i →
    step s = exec i s

/-- 20_memory.md section 2 (R26) and 70_reset_and_hazards.md section 2 (R109): an instruction placed at an even
pc is the one the next step runs; no other byte of memory changes and the canonical form is kept. That a program
is placed from outside is log 12. Under any parameters an instruction placed where the fetch reads, in the byte order
of `FETCH_BIG_ENDIAN` (log 18) and the space of `UNIFIED_MEMORY` (log 17), is the one the next step runs. -/
def Obligations.PlacedInstructionIsTheNextStep : Prop :=
  (∀ (s : State) (i : Instr), s.fault = none → s.pc.toNat % 2 = 0 →
    step (s.withFetchWord 16 (encode i).toNat) = exec i (s.withFetchWord 16 (encode i).toNat) ∧
    (∀ a, a ≠ s.pc → a ≠ s.pc + 1 → (s.withFetchWord 16 (encode i).toNat).byte a = s.byte a) ∧
    (s.mem.wf → (s.withFetchWord 16 (encode i).toNat).mem.wf)) ∧
  ∀ (W A : Nat) (σ : Type) (p : Params W A σ) (s : State.Of W A σ) (i : Instr), 0 < A →
    codeByte p (s.placeWord p s.pc (encode i)) s.pc =
      (if p.fetchBigEndian then firstByte (encode i) else secondByte (encode i)) ∧
    (s.fault = none → s.pc.toNat % 2 = 0 → (p.memMap s.pc = .ram ∨ p.memMap s.pc = .rom) →
      (p.memMap (s.pc + 1) = .ram ∨ p.memMap (s.pc + 1) = .rom) →
      stepUnder p (s.placeWord p s.pc (encode i)) = execUnder p i (s.placeWord p s.pc (encode i)))

/-! ### Accesses -/

/-- 20_memory.md R30 (decisions D22, D23): the data read in each region, and with the decided `MemMap`. -/
def Obligations.DataReadByRegion : Prop :=
  (∀ (W A : Nat) (σ : Type) (p : Params W A σ) (a : BitVec A) (s : State.Of W A σ),
    (p.memMap a = .ram ∨ p.memMap a = .rom → memRead p a s = .ok (s.byte a, s)) ∧
    (p.memMap a = .io → ∃ v, memRead p a s = .ok (v, { s with ioLog := s.ioLog ++ [.read a v] })) ∧
    (p.memMap a = .unmapped → memRead p a s = .error (.accessFault a .read))) ∧
  ∀ (a : Addr) (s : State), memRead Config.params a s = .ok (s.byte a, s)

/-- 20_memory.md R31 (decision D23): the data write in each region, and with the decided `MemMap`; after a write
to `ram` the byte reads back and no other byte has changed. -/
def Obligations.DataWriteByRegion : Prop :=
  (∀ (W A : Nat) (σ : Type) (p : Params W A σ) (a : BitVec A) (v : Byte) (s : State.Of W A σ),
    (p.memMap a = .ram → ∃ m, memWrite p a v s = .ok { s with mem := m } ∧ m.read a.toNat = v ∧
      ∀ c : BitVec A, c ≠ a → m.read c.toNat = s.byte c) ∧
    (p.memMap a = .io → memWrite p a v s = .ok { s with ioLog := s.ioLog ++ [.write a v] }) ∧
    (p.memMap a = .rom ∨ p.memMap a = .unmapped → memWrite p a v s = .error (.accessFault a .write))) ∧
  ∀ (a : Addr) (v : Byte) (s : State), ∃ m, memWrite Config.params a v s = .ok { s with mem := m } ∧
    m.read a.toNat = v ∧ ∀ c : Addr, c ≠ a → m.read c.toNat = s.byte c

/-- 20_memory.md section 4 (R32; decisions D4, D23): the fetch checks pc, then pc + 1, refuses `io` and `unmapped`, and
reads the byte at pc as the high one; with the decided `MemMap` it never faults. At an even pc, pc + 1 does not
wrap. The rule's text is for `UNIFIED_MEMORY` and `FETCH_BIG_ENDIAN` true; that the checks are the same for the other
values is the model's choice (log 17). -/
def Obligations.FetchByRegion : Prop :=
  (∀ (W A : Nat) (σ : Type) (p : Params W A σ) (s : State.Of W A σ), s.pc.toNat % 2 = 0 →
    (0 < A → (s.pc + 1).toNat = s.pc.toNat + 1) ∧
    (p.memMap s.pc = .io ∨ p.memMap s.pc = .unmapped → fetch p s = .error (.accessFault s.pc .fetch)) ∧
    (p.memMap s.pc = .ram ∨ p.memMap s.pc = .rom →
      (p.memMap (s.pc + 1) = .io ∨ p.memMap (s.pc + 1) = .unmapped →
        fetch p s = .error (.accessFault (s.pc + 1) .fetch)) ∧
      (p.memMap (s.pc + 1) = .ram ∨ p.memMap (s.pc + 1) = .rom →
        p.unifiedMemory = true → p.fetchBigEndian = true →
        fetch p s = .ok (s.byte s.pc ++ s.byte (s.pc + 1))))) ∧
  ∀ s : State, fetch Config.params s = .ok (s.byte s.pc ++ s.byte (s.pc + 1))

/-! ### The instructions -/

/-- 40_alu_register.md R65 (decision D5): ADD. -/
def Obligations.AddWritesTheWrappedSum : Prop :=
  ∀ d r : RegId,
    (encode (.add d r)).toNat = 0x0000 + d.toNat * 256 + r.toNat * 16 ∧ decodeWord (encode (.add d r)) = .ok (.add d r) ∧
    ∀ s : State, ∃ t, exec (.add d r) s = .next t ∧
      (t.reg d).toNat = ((s.reg d).toNat + (s.reg r).toNat) % 256 ∧ WritesOnlyReg d s t

/-- 40_alu_register.md R66 (decision D5): SUB, destination minus source. -/
def Obligations.SubWritesTheWrappedDifference : Prop :=
  ∀ d r : RegId,
    (encode (.sub d r)).toNat = 0x1000 + d.toNat * 256 + r.toNat * 16 ∧ decodeWord (encode (.sub d r)) = .ok (.sub d r) ∧
    ∀ s : State, ∃ t, exec (.sub d r) s = .next t ∧
      ((t.reg d).toNat : Int) = (((s.reg d).toNat : Int) - (s.reg r).toNat) % 256 ∧ WritesOnlyReg d s t

/-- 40_alu_register.md R67: AND, bit by bit. -/
def Obligations.AndWritesTheBitwiseAnd : Prop :=
  ∀ d r : RegId,
    (encode (.and d r)).toNat = 0x2000 + d.toNat * 256 + r.toNat * 16 ∧ decodeWord (encode (.and d r)) = .ok (.and d r) ∧
    ∀ s : State, ∃ t, exec (.and d r) s = .next t ∧
      (∀ i < 8, (t.reg d).getLsbD i = ((s.reg d).getLsbD i && (s.reg r).getLsbD i)) ∧ WritesOnlyReg d s t

/-- 40_alu_register.md R68: OR, bit by bit. -/
def Obligations.OrWritesTheBitwiseOr : Prop :=
  ∀ d r : RegId,
    (encode (.or d r)).toNat = 0x3000 + d.toNat * 256 + r.toNat * 16 ∧ decodeWord (encode (.or d r)) = .ok (.or d r) ∧
    ∀ s : State, ∃ t, exec (.or d r) s = .next t ∧
      (∀ i < 8, (t.reg d).getLsbD i = ((s.reg d).getLsbD i || (s.reg r).getLsbD i)) ∧ WritesOnlyReg d s t

/-- 40_alu_register.md R69 (decisions D8, D28; the meaning of a zero flag is G2): CMP sets Z exactly when the
wrapped difference is 0, which is when the registers are equal, writes no register, and does so under every
setting of the parameters. -/
def Obligations.CmpSetsZeroFlagOnEqual : Prop :=
  ∀ d r : RegId,
    (encode (.cmp d r)).toNat = 0x4000 + d.toNat * 256 + r.toNat * 16 ∧ decodeWord (encode (.cmp d r)) = .ok (.cmp d r) ∧
    ∀ s : State, ∃ t, exec (.cmp d r) s = .next t ∧ (∀ p, execUnder p (.cmp d r) s = .next t) ∧
      (t.z = true ↔ (((s.reg d).toNat : Int) - (s.reg r).toNat) % 256 = 0) ∧ (t.z = true ↔ s.reg d = s.reg r) ∧
      (∀ r', t.reg r' = s.reg r') ∧ t.pc = s.pc + 2 ∧ MemSame s t ∧ RestSame s t

/-- 41_alu_immediate.md R72: MOVI, under every setting of the parameters. -/
def Obligations.MoviWritesTheImmediate : Prop :=
  ∀ (d : RegId) (imm : Byte),
    (encode (.movi d imm)).toNat = 0x5000 + d.toNat * 256 + imm.toNat ∧
    decodeWord (encode (.movi d imm)) = .ok (.movi d imm) ∧
    ∀ s : State, ∃ t, exec (.movi d imm) s = .next t ∧ (∀ p, execUnder p (.movi d imm) s = .next t) ∧
      t.reg d = imm ∧ WritesOnlyReg d s t

/-- 41_alu_immediate.md R73 (decision D5): ADDI. -/
def Obligations.AddiWritesTheWrappedSum : Prop :=
  ∀ (d : RegId) (imm : Byte),
    (encode (.addi d imm)).toNat = 0x6000 + d.toNat * 256 + imm.toNat ∧
    decodeWord (encode (.addi d imm)) = .ok (.addi d imm) ∧
    ∀ s : State, ∃ t, exec (.addi d imm) s = .next t ∧
      (t.reg d).toNat = ((s.reg d).toNat + imm.toNat) % 256 ∧ WritesOnlyReg d s t

/-- 41_alu_immediate.md R74 (decision D5; its opcode is C1's): SUBI. -/
def Obligations.SubiWritesTheWrappedDifference : Prop :=
  ∀ (d : RegId) (imm : Byte),
    (encode (.subi d imm)).toNat = 0x7000 + d.toNat * 256 + imm.toNat ∧
    decodeWord (encode (.subi d imm)) = .ok (.subi d imm) ∧
    ∀ s : State, ∃ t, exec (.subi d imm) s = .next t ∧
      ((t.reg d).toNat : Int) = (((s.reg d).toNat : Int) - imm.toNat) % 256 ∧ WritesOnlyReg d s t

/-- 41_alu_immediate.md R75 (its opcode is C1's): ANDI. -/
def Obligations.AndiWritesTheBitwiseAnd : Prop :=
  ∀ (d : RegId) (imm : Byte),
    (encode (.andi d imm)).toNat = 0x8000 + d.toNat * 256 + imm.toNat ∧
    decodeWord (encode (.andi d imm)) = .ok (.andi d imm) ∧
    ∀ s : State, ∃ t, exec (.andi d imm) s = .next t ∧
      (∀ i < 8, (t.reg d).getLsbD i = ((s.reg d).getLsbD i && imm.getLsbD i)) ∧ WritesOnlyReg d s t

/-- 41_alu_immediate.md R76: ORI. -/
def Obligations.OriWritesTheBitwiseOr : Prop :=
  ∀ (d : RegId) (imm : Byte),
    (encode (.ori d imm)).toNat = 0x9000 + d.toNat * 256 + imm.toNat ∧
    decodeWord (encode (.ori d imm)) = .ok (.ori d imm) ∧
    ∀ s : State, ∃ t, exec (.ori d imm) s = .next t ∧
      (∀ i < 8, (t.reg d).getLsbD i = ((s.reg d).getLsbD i || imm.getLsbD i)) ∧ WritesOnlyReg d s t

/-- 42_memory_access.md R78 (decisions D10, D11): the effective address wraps, at any width, the base register of a
LOAD into another register and of every STORE is unchanged, and neither instruction reads or writes Z under any
parameters. -/
def Obligations.EffectiveAddressIsBasePlusOffsetWrapped : Prop :=
  ∀ (W A : Nat) (σ : Type),
  (∀ (s : State.Of W A σ) (b : RegId) (off : Off4),
    (effAddr s b off).toNat = ((s.reg b).toNat + off.toNat) % 2 ^ A) ∧
  ∀ (p : Params W A σ) (d b : RegId) (off : Off4) (s t : State.Of W A σ),
    (execUnder p (.store d b off) s = .next t → t.reg b = s.reg b ∧ t.z = s.z) ∧
    (execUnder p (.load d b off) s = .next t → (d ≠ b → t.reg b = s.reg b) ∧ t.z = s.z) ∧
    ∀ k, (execUnder p (.store d b off) s = .next t →
        execUnder p (.store d b off) { s with z := k } = .next { t with z := k }) ∧
      (execUnder p (.load d b off) s = .next t → execUnder p (.load d b off) { s with z := k } = .next { t with z := k })

/-- 42_memory_access.md R79: LOAD. With the decided `MemMap` the register gets the byte at the effective
address; with any other, by the region of that address. -/
def Obligations.LoadReadsTheByteAtTheEffectiveAddress : Prop :=
  ∀ (d b : RegId) (off : Off4),
    (encode (.load d b off)).toNat = 0xA000 + d.toNat * 256 + b.toNat * 16 + off.toNat ∧
    decodeWord (encode (.load d b off)) = .ok (.load d b off) ∧
    ∀ s : State,
      (effAddr s b off).toNat = ((s.reg b).toNat + off.toNat) % 256 ∧
      (∃ t, exec (.load d b off) s = .next t ∧ t.reg d = s.byte (effAddr s b off) ∧ WritesOnlyReg d s t) ∧
      ∀ p : Params 8 8 Empty,
        (p.memMap (effAddr s b off) = .ram ∨ p.memMap (effAddr s b off) = .rom →
          ∃ t, execUnder p (.load d b off) s = .next t ∧ t.reg d = s.byte (effAddr s b off) ∧ WritesOnlyReg d s t) ∧
        (p.memMap (effAddr s b off) = .io →
          ∃ t v, execUnder p (.load d b off) s = .next t ∧ t.reg d = v ∧
            t.ioLog = s.ioLog ++ [.read (effAddr s b off) v] ∧ WritesOnlyReg d s { t with ioLog := s.ioLog }) ∧
        (p.memMap (effAddr s b off) = .unmapped →
          execUnder p (.load d b off) s = .next { s with fault := some (.accessFault (effAddr s b off) .read) })

/-- 42_memory_access.md R80: STORE. With the decided `MemMap` the byte at the effective address becomes the data
register and no other byte changes; with any other, by the region of that address. The byte is stored even over
the STORE's own word, which was fetched before. -/
def Obligations.StoreWritesTheByteAtTheEffectiveAddress : Prop :=
  ∀ (d b : RegId) (off : Off4),
    (encode (.store d b off)).toNat = 0xB000 + d.toNat * 256 + b.toNat * 16 + off.toNat ∧
    decodeWord (encode (.store d b off)) = .ok (.store d b off) ∧
    ∀ s : State,
      (effAddr s b off).toNat = ((s.reg b).toNat + off.toNat) % 256 ∧
      (∃ t, exec (.store d b off) s = .next t ∧ t.byte (effAddr s b off) = s.reg d ∧
        (∀ a, a ≠ effAddr s b off → t.byte a = s.byte a) ∧ (∀ r, t.reg r = s.reg r) ∧ t.pc = s.pc + 2 ∧
        t.z = s.z ∧ t.code = s.code ∧ RestSame s t) ∧
      ∀ p : Params 8 8 Empty,
        (p.memMap (effAddr s b off) = .ram → execUnder p (.store d b off) s = exec (.store d b off) s) ∧
        (p.memMap (effAddr s b off) = .io →
          execUnder p (.store d b off) s =
            .next { s with ioLog := s.ioLog ++ [.write (effAddr s b off) (s.reg d)], pc := s.pc + 2 }) ∧
        (p.memMap (effAddr s b off) = .rom ∨ p.memMap (effAddr s b off) = .unmapped →
          execUnder p (.store d b off) s = .next { s with fault := some (.accessFault (effAddr s b off) .write) })

/-- 43_control_flow.md R83: the fields of type D and the target of a jump, at any address width; offset 0 targets the
next instruction, offset 0xFE the jump itself, and a jump that is not taken, and every instruction but a jump and RET, continues at pc + 2. -/
def Obligations.JumpTargetIsRelativeToTheNextInstruction : Prop :=
  (∀ (A : Nat) (pc : BitVec A) (off : Byte),
    ((jumpTarget pc off).toNat : Int) = ((pc.toNat : Int) + 2 + sext8 off) % (2 ^ A : Nat) ∧
    -128 ≤ sext8 off ∧ sext8 off ≤ 127) ∧
  (∀ (off : Byte) (i : Instr), i = .jmp off ∨ i = .jz off ∨ i = .jnz off → (encode i).toNat % 4096 = off.toNat) ∧
  (∀ pc : Addr, jumpTarget pc 0 = pc + 2 ∧ jumpTarget pc 0xFE = pc) ∧
  (∀ (off : Byte) (s : State),
    (s.z = false → ∃ t, exec (.jz off) s = .next t ∧ t.pc = s.pc + 2) ∧
    (s.z = true → ∃ t, exec (.jnz off) s = .next t ∧ t.pc = s.pc + 2)) ∧
  ∀ (i : Instr) (s t : State), (∀ off, i ≠ .jmp off ∧ i ≠ .jz off ∧ i ≠ .jnz off) → i ≠ .ret →
    exec i s = .next t → t.pc = s.pc + 2

/-- 43_control_flow.md R84 (`sext` is G1's): JMP, under every setting of the parameters; if the target is odd the
next step raises `MisalignedFetch`. -/
def Obligations.JmpGoesToTheTarget : Prop :=
  ∀ off : Byte,
    (encode (.jmp off)).toNat = 0xC000 + off.toNat ∧ decodeWord (encode (.jmp off)) = .ok (.jmp off) ∧
    ∀ s : State, ∃ t, exec (.jmp off) s = .next t ∧ (∀ p, execUnder p (.jmp off) s = .next t) ∧
      ((t.pc.toNat : Int) = ((s.pc.toNat : Int) + 2 + sext8 off) % 256) ∧ WritesOnlyPc s t ∧
      (s.fault = none → t.pc.toNat % 2 = 1 → step t = .next (t.raise (.misalignedFetch t.pc)))

/-- 43_control_flow.md R85 (90_conflicts.md C9): JZ is taken exactly when Z = 1, which after CMP is when the two
registers are equal. -/
def Obligations.JzIsTakenExactlyWhenZeroFlagSet : Prop :=
  ∀ off : Byte,
    (encode (.jz off)).toNat = 0xD000 + off.toNat ∧ decodeWord (encode (.jz off)) = .ok (.jz off) ∧
    ∀ s : State, ∃ t, exec (.jz off) s = .next t ∧
      (s.z = true → (t.pc.toNat : Int) = ((s.pc.toNat : Int) + 2 + sext8 off) % 256) ∧
      (s.z = false → t.pc = s.pc + 2) ∧ WritesOnlyPc s t ∧
      ∀ a b u, exec (.cmp a b) u = .next s → t.pc = if u.reg a = u.reg b then jumpTarget s.pc off else s.pc + 2

/-- 43_control_flow.md R86 (90_conflicts.md C9): JNZ is taken exactly when Z = 0, which after CMP is when the two
registers differ; in any state exactly one of JZ and JNZ is taken. -/
def Obligations.JnzIsTakenExactlyWhenZeroFlagClear : Prop :=
  ∀ off : Byte,
    (encode (.jnz off)).toNat = 0xE000 + off.toNat ∧ decodeWord (encode (.jnz off)) = .ok (.jnz off) ∧
    ∀ s : State, ∃ t, exec (.jnz off) s = .next t ∧
      (s.z = false → (t.pc.toNat : Int) = ((s.pc.toNat : Int) + 2 + sext8 off) % 256) ∧
      (s.z = true → t.pc = s.pc + 2) ∧ WritesOnlyPc s t ∧
      (∀ a b u, exec (.cmp a b) u = .next s → t.pc = if u.reg a = u.reg b then s.pc + 2 else jumpTarget s.pc off) ∧
      ∃ u, exec (.jz off) s = .next u ∧
        (t.pc = jumpTarget s.pc off ∧ u.pc = s.pc + 2 ∨ t.pc = s.pc + 2 ∧ u.pc = jumpTarget s.pc off)

/-- 43_control_flow.md R90 (decisions D15, D16): RET raises `RetStackUndefined(pc)` and changes nothing else;
its canonical word is 0xF000, any low byte decodes to it, and a reserved bit makes it illegal instead. -/
def Obligations.RetRaisesRetStackUndefined : Prop :=
  (encode .ret).toNat = 0xF000 ∧ (∀ low : Byte, decodeWord (0xF0#8 ++ low) = .ok .ret) ∧
  (∀ s : State, exec .ret s = .next { s with fault := some (.retStackUndefined s.pc) }) ∧
  ∀ s : State, s.fault = none → s.pc.toNat % 2 = 0 → (s.wordAt s.pc).toNat / 4096 = 15 →
    s.wordAt s.pc &&& 0x0F00 ≠ 0 → step s = .next (s.raise (.illegalInstruction s.pc (s.wordAt s.pc)))

/-- 43_control_flow.md R91 (decision D15): RET under any `RET_MODEL`. With none it raises `RetStackUndefined(pc)`.
With a supplied record the state after reset holds S at its reset value; RET pops, and S and the pc are what pop
gives, or it raises pop's fault; and no other instruction reads or writes S. -/
def Obligations.RetUnderASuppliedModelPops : Prop :=
  ∀ (W A : Nat) (σ : Type) (p : Params W A σ),
    (p.retModel = none → ∀ s : State.Of W A σ, execUnder p .ret s = .next (s.raise (.retStackUndefined s.pc))) ∧
    (∀ (m : RetStack A σ), p.retModel = some m →
      (∀ regs z mem code, (State.launch p regs z mem code).stack = some m.reset) ∧
      (∀ s : State.Of W A σ, Launch p s → s.stack = some m.reset) ∧
      ∀ (s : State.Of W A σ) (S S' : σ) (t : BitVec A) (f : Fault.Of A), s.stack = some S →
        (m.pop S s.byte = .ok (t, S') → execUnder p .ret s = .next { s with pc := t, stack := some S' }) ∧
        (m.pop S s.byte = .error f → execUnder p .ret s = .next { s with fault := some f })) ∧
    ∀ (i : Instr) (s t : State.Of W A σ), i ≠ .ret → execUnder p i s = .next t →
      t.stack = s.stack ∧ ∀ k, execUnder p i { s with stack := k } = .next { t with stack := k }

/-! ### Instructions together -/

/-- 20_memory.md section 8 (R37) and 42_memory_access.md section 3 (R82): a LOAD directly after a STORE gives the
stored byte at the same address, and the byte that was there at any other. -/
def Obligations.LoadAfterStoreGivesTheStoredByte : Prop :=
  ∀ (d b r c : RegId) (off off' : Off4) (s : State), ∃ t u,
    exec (.store d b off) s = .next t ∧ exec (.load r c off') t = .next u ∧
    u.reg r = if effAddr s c off' = effAddr s b off then s.reg d else s.byte (effAddr s c off')

/-- 20_memory.md section 8 (R40; decision D25): a stored byte is in every word fetched at its address from the
state after, and one stored into the next instruction is what the next step runs. With `UNIFIED_MEMORY` = false no
instruction changes any word a fetch gives (log 17). -/
def Obligations.NextFetchSeesTheStoredByte : Prop :=
  (∀ (d b : RegId) (off : Off4) (s t : State) (i : Instr),
    s.fault = none → s.pc.toNat % 2 = 0 → exec (.store d b off) s = .next t →
    (∀ a, t.wordAt a = (if a = effAddr s b off then s.reg d else s.byte a) ++
      (if a + 1 = effAddr s b off then s.reg d else s.byte (a + 1))) ∧
    (effAddr s b off = s.pc + 2 → decodeWord (s.reg d ++ s.byte (s.pc + 3)) = .ok i → step t = exec i t) ∧
    (effAddr s b off = s.pc + 3 → decodeWord (s.byte (s.pc + 2) ++ s.reg d) = .ok i → step t = exec i t)) ∧
  ∀ (W A : Nat) (σ : Type) (p : Params W A σ) (i : Instr) (s t : State.Of W A σ),
    p.unifiedMemory = false → execUnder p i s = .next t → ∀ a, codeWord p t a = codeWord p s a

/-- 43_control_flow.md section 2 (R85, R86): after CMP, JZ is taken exactly when the registers are equal, JNZ
exactly when they are not, so exactly one of the two is taken. -/
def Obligations.ConditionalJumpAfterCmp : Prop :=
  ∀ (a b : RegId) (off : Byte) (s : State), ∃ t u w,
    exec (.cmp a b) s = .next t ∧ exec (.jz off) t = .next u ∧ exec (.jnz off) t = .next w ∧
    (if s.reg a = s.reg b then u.pc = jumpTarget (s.pc + 2) off ∧ w.pc = s.pc + 4
      else u.pc = s.pc + 4 ∧ w.pc = jumpTarget (s.pc + 2) off)

/-- 41_alu_immediate.md section 3 (R77): SUBI by k is ADDI by 256 - k, and ANDI is MOVI to another register
followed by AND. -/
def Obligations.ContestedOpcodesHaveEquivalents : Prop :=
  (∀ (d : RegId) (k : Byte) (s : State),
    exec (.subi d k) s = exec (.addi d (BitVec.ofNat 8 (256 - k.toNat))) s) ∧
  ∀ (d x : RegId) (m : Byte) (s : State), x ≠ d → ∃ t u w,
    exec (.andi d m) s = .next t ∧ exec (.movi x m) s = .next u ∧ exec (.and d x) u = .next w ∧
    w.reg d = t.reg d ∧ w.reg x = m ∧ (∀ r, r ≠ x → w.reg r = t.reg r) ∧ w.z = t.z ∧ w.mem = t.mem

/-- 42_memory_access.md section 3 (R81): MOVI of an address and offset 0 reach every address. With an address
wider than the 8-bit register LOAD and STORE reach the addresses 0x000 to 0x10E and no other. -/
def Obligations.EveryAddressIsReachable : Prop :=
  (∀ (b d : RegId) (a : Addr) (s : State),
    (∃ t u, exec (.movi b a) s = .next t ∧ exec (.load d b 0) t = .next u ∧ u.reg d = s.byte a) ∧
    (d ≠ b → ∃ t u, exec (.movi b a) s = .next t ∧ exec (.store d b 0) t = .next u ∧ u.byte a = s.reg d ∧
      ∀ c, c ≠ a → u.byte c = s.byte c)) ∧
  ∀ (A : Nat) (σ : Type), 8 < A →
    (∀ (s : State.Of 8 A σ) (b : RegId) (off : Off4), (effAddr s b off).toNat ≤ 0x10E) ∧
    ∀ n ≤ 0x10E, ∃ (v : Byte) (off : Off4), ∀ (s : State.Of 8 A σ) (b : RegId),
      s.reg b = v → (effAddr s b off).toNat = n

/-- 30_encoding.md section 5 (R59): the words that change nothing but the pc. JMP +0 under every setting of the
parameters, the others when `ALU_WRITES_Z` is false. -/
def Obligations.WordsThatOnlyAdvanceThePc : Prop :=
  ∀ (A : Nat) (σ : Type) (p : Params 8 A σ) (s : State.Of 8 A σ) (d : RegId),
    execUnder p (.jmp 0) s = .next { s with pc := s.pc + 2 } ∧
    (p.aluWritesZ = false →
      execUnder p (.addi d 0) s = .next { s with pc := s.pc + 2 } ∧
      execUnder p (.ori d 0) s = .next { s with pc := s.pc + 2 } ∧
      execUnder p (.andi d 0xFF) s = .next { s with pc := s.pc + 2 } ∧
      execUnder p (.and d d) s = .next { s with pc := s.pc + 2 } ∧
      execUnder p (.or d d) s = .next { s with pc := s.pc + 2 })

/-! ### The end of a run -/

/-- 70_reset_and_hazards.md R112 (decision D21): a run has ended normally exactly at a state without a fault that its
step yields again, equality being R24's; that is exactly at a taken jump to itself, which leaves every field as it is.
It has ended abnormally exactly when a fault is set; the two exclude each other. -/
def Obligations.RunEndsNormallyExactlyAtATakenSelfJump : Prop :=
  ∀ s : State,
    (endedNormally s = true ↔ s.fault = none ∧ ∃ t, step s = .next t ∧ SameState s t) ∧
    (endedNormally s = true ↔ s.fault = none ∧ step s = .next s) ∧
    (endedNormally s = true ↔ s.fault = none ∧ s.pc.toNat % 2 = 0 ∧
      (s.wordAt s.pc = 0xC0FE ∨ (s.wordAt s.pc = 0xD0FE ∧ s.z = true) ∨ (s.wordAt s.pc = 0xE0FE ∧ s.z = false))) ∧
    (endedAbnormally s = true ↔ s.fault ≠ none) ∧ ¬(endedNormally s = true ∧ endedAbnormally s = true)

/-- 70_reset_and_hazards.md section 3 (R112): a run that has ended normally stays in that state for ever. -/
def Obligations.EndedRunStaysAsItIs : Prop :=
  ∀ (s : State) (n : Nat), endedNormally s = true → Sys2Proof.core.run n s = .next s

/-- 70_reset_and_hazards.md section 3 (R113): an executor under fuel reports a state the machine reaches, a
normal end is one, an abnormal one has a fault, and more fuel does not change either answer. Under any parameters
and any `END` (00_scope.md R5) it reports a normal end only where `END` says so and no fault is set; the decided `END`
says so, under any parameters, where no fault is set and the step yields the state again (log 20). -/
def Obligations.ExecutorUnderFuelIsSound : Prop :=
  (∀ (n m : Nat) (s t : State),
    (runFuel n s = .normal t → endedNormally t = true ∧ (∃ k ≤ n, Sys2Proof.core.run k s = .next t) ∧
      runFuel (n + m) s = .normal t) ∧
    (runFuel n s = .abnormal t → endedAbnormally t = true ∧ (∃ k ≤ n, Sys2Proof.core.run k s = .next t) ∧
      runFuel (n + m) s = .abnormal t) ∧
    (runFuel n s = .outOfFuel t → Sys2Proof.core.run n s = .next t)) ∧
  (∀ (W A : Nat) (σ : Type) (p : Params W A σ) (ended : State.Of W A σ → Bool) (n : Nat) (s t : State.Of W A σ),
    (runFuelUnder p ended n s = .normal t → t.fault = none ∧ ended t = true) ∧
    (runFuelUnder p ended n s = .abnormal t → t.fault ≠ none)) ∧
  ∀ (W A : Nat) (σ : Type) [DecidableEq σ] (p : Params W A σ) (s : State.Of W A σ),
    endedNormallyUnder p s = true ↔ s.fault = none ∧ ∃ t, stepUnder p s = .next t ∧ SameUnder p s t
end

