-- ==== Sys2Proof/Laws/Encoding.lean ====
section
/-! SUPPORT. The fields of a packed word, and the two bytes of a word. -/

namespace Sys2Proof

/-! The bits of a packed word, from the least significant field up. -/

theorem getElem_packA (op : Opcode) (d s : RegId) (k : Nat) (h : k < 16) :
    (packA op d s)[k] =
      if k < 4 then false else if k < 7 then s.getLsbD (k - 4) else if k < 8 then false
      else if k < 11 then d.getLsbD (k - 8) else if k < 12 then false else op.getLsbD (k - 12) := by
  simp [packA]; grind

theorem getElem_packB (op : Opcode) (d : RegId) (imm : Byte) (k : Nat) (h : k < 16) :
    (packB op d imm)[k] =
      if k < 8 then imm.getLsbD k
      else if k < 11 then d.getLsbD (k - 8) else if k < 12 then false else op.getLsbD (k - 12) := by
  simp [packB]; grind

theorem getElem_packC (op : Opcode) (d b : RegId) (off : Off4) (k : Nat) (h : k < 16) :
    (packC op d b off)[k] =
      if k < 4 then off.getLsbD k else if k < 7 then b.getLsbD (k - 4) else if k < 8 then false
      else if k < 11 then d.getLsbD (k - 8) else if k < 12 then false else op.getLsbD (k - 12) := by
  simp [packC]; grind

theorem getElem_packD (op : Opcode) (off : Byte) (k : Nat) (h : k < 16) :
    (packD op off)[k] =
      if k < 8 then off.getLsbD k else if k < 12 then false else op.getLsbD (k - 12) := by
  simp [packD]; grind

/-! The fields of a packed word. -/

@[simp] theorem opField_packA (op : Opcode) (d s : RegId) : opField (packA op d s) = op := by
  ext i; simp [opField, packA]; grind

@[simp] theorem dField_packA (op : Opcode) (d s : RegId) : dField (packA op d s) = d := by
  ext i; simp [dField, packA]; grind

@[simp] theorem sField_packA (op : Opcode) (d s : RegId) : sField (packA op d s) = s := by
  ext i; simp [sField, packA]; grind

@[simp] theorem opField_packB (op : Opcode) (d : RegId) (imm : Byte) : opField (packB op d imm) = op := by
  ext i; simp [opField, packB]; grind

@[simp] theorem dField_packB (op : Opcode) (d : RegId) (imm : Byte) : dField (packB op d imm) = d := by
  ext i; simp [dField, packB]; grind

@[simp] theorem payload_packB (op : Opcode) (d : RegId) (imm : Byte) : payload (packB op d imm) = imm := by
  ext i; simp [payload, packB]; grind

@[simp] theorem opField_packC (op : Opcode) (d b : RegId) (off : Off4) : opField (packC op d b off) = op := by
  ext i; simp [opField, packC]; grind

@[simp] theorem dField_packC (op : Opcode) (d b : RegId) (off : Off4) : dField (packC op d b off) = d := by
  ext i; simp [dField, packC]; grind

@[simp] theorem sField_packC (op : Opcode) (d b : RegId) (off : Off4) : sField (packC op d b off) = b := by
  ext i; simp [sField, packC]; grind

@[simp] theorem off4Field_packC (op : Opcode) (d b : RegId) (off : Off4) : off4Field (packC op d b off) = off := by
  ext i; simp [off4Field, packC]; grind

@[simp] theorem opField_packD (op : Opcode) (off : Byte) : opField (packD op off) = op := by
  ext i; simp [opField, packD]; grind

@[simp] theorem payload_packD (op : Opcode) (off : Byte) : payload (packD op off) = off := by
  ext i; simp [payload, packD]; grind

/-! The number of a packed word (R63). -/

theorem toNat_append_eq_add {n m : Nat} (x : BitVec n) (y : BitVec m) :
    (x ++ y).toNat = x.toNat * 2 ^ m + y.toNat := by
  rw [BitVec.toNat_append, Nat.shiftLeft_eq, Nat.mul_comm, Nat.two_pow_add_eq_or_of_lt y.isLt]

theorem toNat_packA (op : Opcode) (d s : RegId) :
    (packA op d s).toNat = op.toNat * 4096 + d.toNat * 256 + s.toNat * 16 := by
  change (op ++ 0#1 ++ d ++ 0#1 ++ s ++ 0#4).toNat = _
  simp only [toNat_append_eq_add, BitVec.toNat_ofNat]
  omega

theorem toNat_packB (op : Opcode) (d : RegId) (imm : Byte) :
    (packB op d imm).toNat = op.toNat * 4096 + d.toNat * 256 + imm.toNat := by
  change (op ++ 0#1 ++ d ++ imm).toNat = _
  simp only [toNat_append_eq_add, BitVec.toNat_ofNat]
  omega

theorem toNat_packC (op : Opcode) (d b : RegId) (off : Off4) :
    (packC op d b off).toNat = op.toNat * 4096 + d.toNat * 256 + b.toNat * 16 + off.toNat := by
  change (op ++ 0#1 ++ d ++ 0#1 ++ b ++ off).toNat = _
  simp only [toNat_append_eq_add, BitVec.toNat_ofNat]
  omega

theorem toNat_packD (op : Opcode) (off : Byte) : (packD op off).toNat = op.toNat * 4096 + off.toNat := by
  change (op ++ 0#4 ++ off).toNat = _
  simp only [toNat_append_eq_add, BitVec.toNat_ofNat]
  omega

/-! A word whose reserved bits are 0 is the packing of its fields. -/

/-- The bits where a mask and a word do not meet. -/
theorem getLsbD_of_and_eq_zero {iw mask : Word} (h : iw &&& mask = 0) (k : Nat) (hk : mask.getLsbD k = true) :
    iw.getLsbD k = false := by
  have := congrArg (fun w => w.getLsbD k) h
  simpa [hk] using this

theorem packA_fields {iw : Word} (h : iw &&& 0x088F = 0) : packA (opField iw) (dField iw) (sField iw) = iw := by
  have hb := getLsbD_of_and_eq_zero h
  have h0 := hb 0 rfl; have h1 := hb 1 rfl; have h2 := hb 2 rfl; have h3 := hb 3 rfl
  have h7 := hb 7 rfl; have h11 := hb 11 rfl
  ext k hk
  interval_cases k <;> simp_all [getElem_packA, opField, dField, sField]

theorem packB_fields {iw : Word} (h : iw &&& 0x0800 = 0) : packB (opField iw) (dField iw) (payload iw) = iw := by
  have h11 := getLsbD_of_and_eq_zero h 11 rfl
  ext k hk
  interval_cases k <;> simp_all [getElem_packB, opField, dField, payload]

theorem packC_fields {iw : Word} (h : iw &&& 0x0880 = 0) :
    packC (opField iw) (dField iw) (sField iw) (off4Field iw) = iw := by
  have hb := getLsbD_of_and_eq_zero h
  have h7 := hb 7 rfl; have h11 := hb 11 rfl
  ext k hk
  interval_cases k <;> simp_all [getElem_packC, opField, dField, sField, off4Field]

theorem packD_fields {iw : Word} (h : iw &&& 0x0F00 = 0) : packD (opField iw) (payload iw) = iw := by
  have hb := getLsbD_of_and_eq_zero h
  have h8 := hb 8 rfl; have h9 := hb 9 rfl; have h10 := hb 10 rfl; have h11 := hb 11 rfl
  ext k hk
  interval_cases k <;> simp_all [getElem_packD, opField, payload]

/-- The opcode field as the number the word begins with. -/
theorem toNat_opField (iw : Word) : (opField iw).toNat = iw.toNat / 4096 := by
  have := iw.isLt
  simp [opField, BitVec.extractLsb'_toNat, Nat.shiftRight_eq_div_pow]
  omega

/-- The two bytes of a word, put together, are the word (20_memory.md R26). -/
@[simp] theorem wordOfBytes_first_second (iw : Word) : wordOfBytes (firstByte iw) (secondByte iw) = iw := by
  ext i; simp [wordOfBytes, firstByte, secondByte]; grind

end Sys2Proof
end

