-- ==== Sys2Proof/Laws/State.lean ====
section
/-! SUPPORT. One lemma per field of the state per update, so that no later proof unfolds a record update. -/

namespace Sys2Proof.Machine

variable {W A : Nat} {σ : Type}

/-! `State.Of.setReg` -/

@[simp] theorem State.pc_setReg (s : State.Of W A σ) (d : RegId) (v : BitVec W) : (s.setReg d v).pc = s.pc := rfl
@[simp] theorem State.z_setReg (s : State.Of W A σ) (d : RegId) (v : BitVec W) : (s.setReg d v).z = s.z := rfl
@[simp] theorem State.mem_setReg (s : State.Of W A σ) (d : RegId) (v : BitVec W) : (s.setReg d v).mem = s.mem := rfl
@[simp] theorem State.fault_setReg (s : State.Of W A σ) (d : RegId) (v : BitVec W) :
    (s.setReg d v).fault = s.fault := rfl
@[simp] theorem State.ioLog_setReg (s : State.Of W A σ) (d : RegId) (v : BitVec W) :
    (s.setReg d v).ioLog = s.ioLog := rfl
@[simp] theorem State.code_setReg (s : State.Of W A σ) (d : RegId) (v : BitVec W) :
    (s.setReg d v).code = s.code := rfl
@[simp] theorem State.stack_setReg (s : State.Of W A σ) (d : RegId) (v : BitVec W) :
    (s.setReg d v).stack = s.stack := rfl
@[simp] theorem State.byte_setReg (s : State.Of W A σ) (d : RegId) (v : BitVec W) (c : BitVec A) :
    (s.setReg d v).byte c = s.byte c := rfl
@[simp] theorem State.wordAt_setReg (s : State.Of W A σ) (d : RegId) (v : BitVec W) (c : BitVec A) :
    (s.setReg d v).wordAt c = s.wordAt c := rfl
@[simp] theorem State.codeWord_setReg (p : Params W A σ) (s : State.Of W A σ) (d : RegId) (v : BitVec W) (c : BitVec A) :
    codeWord p (s.setReg d v) c = codeWord p s c := rfl

/-! `State.Of.setZ` -/

@[simp] theorem State.regs_setZ (s : State.Of W A σ) (b : Bool) : (s.setZ b).regs = s.regs := rfl
@[simp] theorem State.pc_setZ (s : State.Of W A σ) (b : Bool) : (s.setZ b).pc = s.pc := rfl
@[simp] theorem State.z_setZ (s : State.Of W A σ) (b : Bool) : (s.setZ b).z = b := rfl
@[simp] theorem State.mem_setZ (s : State.Of W A σ) (b : Bool) : (s.setZ b).mem = s.mem := rfl
@[simp] theorem State.fault_setZ (s : State.Of W A σ) (b : Bool) : (s.setZ b).fault = s.fault := rfl
@[simp] theorem State.ioLog_setZ (s : State.Of W A σ) (b : Bool) : (s.setZ b).ioLog = s.ioLog := rfl
@[simp] theorem State.code_setZ (s : State.Of W A σ) (b : Bool) : (s.setZ b).code = s.code := rfl
@[simp] theorem State.stack_setZ (s : State.Of W A σ) (b : Bool) : (s.setZ b).stack = s.stack := rfl
@[simp] theorem State.reg_setZ (s : State.Of W A σ) (b : Bool) (r : RegId) : (s.setZ b).reg r = s.reg r := rfl
@[simp] theorem State.byte_setZ (s : State.Of W A σ) (b : Bool) (c : BitVec A) : (s.setZ b).byte c = s.byte c := rfl
@[simp] theorem State.wordAt_setZ (s : State.Of W A σ) (b : Bool) (c : BitVec A) :
    (s.setZ b).wordAt c = s.wordAt c := rfl
@[simp] theorem State.codeWord_setZ (p : Params W A σ) (s : State.Of W A σ) (b : Bool) (c : BitVec A) :
    codeWord p (s.setZ b) c = codeWord p s c := rfl

/-! `State.Of.setPc` -/

@[simp] theorem State.regs_setPc (s : State.Of W A σ) (t : BitVec A) : (s.setPc t).regs = s.regs := rfl
@[simp] theorem State.pc_setPc (s : State.Of W A σ) (t : BitVec A) : (s.setPc t).pc = t := rfl
@[simp] theorem State.z_setPc (s : State.Of W A σ) (t : BitVec A) : (s.setPc t).z = s.z := rfl
@[simp] theorem State.mem_setPc (s : State.Of W A σ) (t : BitVec A) : (s.setPc t).mem = s.mem := rfl
@[simp] theorem State.fault_setPc (s : State.Of W A σ) (t : BitVec A) : (s.setPc t).fault = s.fault := rfl
@[simp] theorem State.ioLog_setPc (s : State.Of W A σ) (t : BitVec A) : (s.setPc t).ioLog = s.ioLog := rfl
@[simp] theorem State.code_setPc (s : State.Of W A σ) (t : BitVec A) : (s.setPc t).code = s.code := rfl
@[simp] theorem State.stack_setPc (s : State.Of W A σ) (t : BitVec A) : (s.setPc t).stack = s.stack := rfl
@[simp] theorem State.reg_setPc (s : State.Of W A σ) (t : BitVec A) (r : RegId) : (s.setPc t).reg r = s.reg r := rfl
@[simp] theorem State.byte_setPc (s : State.Of W A σ) (t : BitVec A) (c : BitVec A) :
    (s.setPc t).byte c = s.byte c := rfl
@[simp] theorem State.wordAt_setPc (s : State.Of W A σ) (t : BitVec A) (c : BitVec A) :
    (s.setPc t).wordAt c = s.wordAt c := rfl
@[simp] theorem State.codeWord_setPc (p : Params W A σ) (s : State.Of W A σ) (t : BitVec A) (c : BitVec A) :
    codeWord p (s.setPc t) c = codeWord p s c := rfl

/-! `State.Of.advance` -/

@[simp] theorem State.regs_advance (s : State.Of W A σ) : (s.advance).regs = s.regs := rfl
@[simp] theorem State.pc_advance (s : State.Of W A σ) : (s.advance).pc = s.pc + 2 := rfl
@[simp] theorem State.z_advance (s : State.Of W A σ) : (s.advance).z = s.z := rfl
@[simp] theorem State.mem_advance (s : State.Of W A σ) : (s.advance).mem = s.mem := rfl
@[simp] theorem State.fault_advance (s : State.Of W A σ) : (s.advance).fault = s.fault := rfl
@[simp] theorem State.ioLog_advance (s : State.Of W A σ) : (s.advance).ioLog = s.ioLog := rfl
@[simp] theorem State.code_advance (s : State.Of W A σ) : (s.advance).code = s.code := rfl
@[simp] theorem State.stack_advance (s : State.Of W A σ) : (s.advance).stack = s.stack := rfl
@[simp] theorem State.reg_advance (s : State.Of W A σ) (r : RegId) : (s.advance).reg r = s.reg r := rfl
@[simp] theorem State.byte_advance (s : State.Of W A σ) (c : BitVec A) : (s.advance).byte c = s.byte c := rfl
@[simp] theorem State.wordAt_advance (s : State.Of W A σ) (c : BitVec A) : (s.advance).wordAt c = s.wordAt c := rfl
@[simp] theorem State.codeWord_advance (p : Params W A σ) (s : State.Of W A σ) (c : BitVec A) :
    codeWord p (s.advance) c = codeWord p s c := rfl

/-! `State.Of.setByte` -/

@[simp] theorem State.regs_setByte (s : State.Of W A σ) (a : BitVec A) (v : Byte) :
    (s.setByte a v).regs = s.regs := rfl
@[simp] theorem State.pc_setByte (s : State.Of W A σ) (a : BitVec A) (v : Byte) : (s.setByte a v).pc = s.pc := rfl
@[simp] theorem State.z_setByte (s : State.Of W A σ) (a : BitVec A) (v : Byte) : (s.setByte a v).z = s.z := rfl
@[simp] theorem State.mem_setByte (s : State.Of W A σ) (a : BitVec A) (v : Byte) :
    (s.setByte a v).mem = s.mem.write a.toNat v := rfl
@[simp] theorem State.fault_setByte (s : State.Of W A σ) (a : BitVec A) (v : Byte) :
    (s.setByte a v).fault = s.fault := rfl
@[simp] theorem State.ioLog_setByte (s : State.Of W A σ) (a : BitVec A) (v : Byte) :
    (s.setByte a v).ioLog = s.ioLog := rfl
@[simp] theorem State.code_setByte (s : State.Of W A σ) (a : BitVec A) (v : Byte) :
    (s.setByte a v).code = s.code := rfl
@[simp] theorem State.stack_setByte (s : State.Of W A σ) (a : BitVec A) (v : Byte) :
    (s.setByte a v).stack = s.stack := rfl
@[simp] theorem State.reg_setByte (s : State.Of W A σ) (a : BitVec A) (v : Byte) (r : RegId) :
    (s.setByte a v).reg r = s.reg r := rfl

/-! `State.Of.logIo` -/

@[simp] theorem State.regs_logIo (s : State.Of W A σ) (e : IoEvent A) : (s.logIo e).regs = s.regs := rfl
@[simp] theorem State.pc_logIo (s : State.Of W A σ) (e : IoEvent A) : (s.logIo e).pc = s.pc := rfl
@[simp] theorem State.z_logIo (s : State.Of W A σ) (e : IoEvent A) : (s.logIo e).z = s.z := rfl
@[simp] theorem State.mem_logIo (s : State.Of W A σ) (e : IoEvent A) : (s.logIo e).mem = s.mem := rfl
@[simp] theorem State.fault_logIo (s : State.Of W A σ) (e : IoEvent A) : (s.logIo e).fault = s.fault := rfl
@[simp] theorem State.ioLog_logIo (s : State.Of W A σ) (e : IoEvent A) : (s.logIo e).ioLog = s.ioLog ++ [e] := rfl
@[simp] theorem State.code_logIo (s : State.Of W A σ) (e : IoEvent A) : (s.logIo e).code = s.code := rfl
@[simp] theorem State.stack_logIo (s : State.Of W A σ) (e : IoEvent A) : (s.logIo e).stack = s.stack := rfl
@[simp] theorem State.reg_logIo (s : State.Of W A σ) (e : IoEvent A) (r : RegId) : (s.logIo e).reg r = s.reg r := rfl
@[simp] theorem State.byte_logIo (s : State.Of W A σ) (e : IoEvent A) (c : BitVec A) :
    (s.logIo e).byte c = s.byte c := rfl
@[simp] theorem State.wordAt_logIo (s : State.Of W A σ) (e : IoEvent A) (c : BitVec A) :
    (s.logIo e).wordAt c = s.wordAt c := rfl
@[simp] theorem State.codeWord_logIo (p : Params W A σ) (s : State.Of W A σ) (e : IoEvent A) (c : BitVec A) :
    codeWord p (s.logIo e) c = codeWord p s c := rfl

/-! `State.Of.raise` -/

@[simp] theorem State.regs_raise (s : State.Of W A σ) (f : Fault.Of A) : (s.raise f).regs = s.regs := rfl
@[simp] theorem State.pc_raise (s : State.Of W A σ) (f : Fault.Of A) : (s.raise f).pc = s.pc := rfl
@[simp] theorem State.z_raise (s : State.Of W A σ) (f : Fault.Of A) : (s.raise f).z = s.z := rfl
@[simp] theorem State.mem_raise (s : State.Of W A σ) (f : Fault.Of A) : (s.raise f).mem = s.mem := rfl
@[simp] theorem State.fault_raise (s : State.Of W A σ) (f : Fault.Of A) : (s.raise f).fault = some f := rfl
@[simp] theorem State.ioLog_raise (s : State.Of W A σ) (f : Fault.Of A) : (s.raise f).ioLog = s.ioLog := rfl
@[simp] theorem State.code_raise (s : State.Of W A σ) (f : Fault.Of A) : (s.raise f).code = s.code := rfl
@[simp] theorem State.stack_raise (s : State.Of W A σ) (f : Fault.Of A) : (s.raise f).stack = s.stack := rfl
@[simp] theorem State.reg_raise (s : State.Of W A σ) (f : Fault.Of A) (r : RegId) : (s.raise f).reg r = s.reg r := rfl
@[simp] theorem State.byte_raise (s : State.Of W A σ) (f : Fault.Of A) (c : BitVec A) :
    (s.raise f).byte c = s.byte c := rfl
@[simp] theorem State.wordAt_raise (s : State.Of W A σ) (f : Fault.Of A) (c : BitVec A) :
    (s.raise f).wordAt c = s.wordAt c := rfl
@[simp] theorem State.codeWord_raise (p : Params W A σ) (s : State.Of W A σ) (f : Fault.Of A) (c : BitVec A) :
    codeWord p (s.raise f) c = codeWord p s c := rfl

/-! `State.Of.setStack` -/

@[simp] theorem State.regs_setStack (s : State.Of W A σ) (x : σ) : (s.setStack x).regs = s.regs := rfl
@[simp] theorem State.pc_setStack (s : State.Of W A σ) (x : σ) : (s.setStack x).pc = s.pc := rfl
@[simp] theorem State.z_setStack (s : State.Of W A σ) (x : σ) : (s.setStack x).z = s.z := rfl
@[simp] theorem State.mem_setStack (s : State.Of W A σ) (x : σ) : (s.setStack x).mem = s.mem := rfl
@[simp] theorem State.fault_setStack (s : State.Of W A σ) (x : σ) : (s.setStack x).fault = s.fault := rfl
@[simp] theorem State.ioLog_setStack (s : State.Of W A σ) (x : σ) : (s.setStack x).ioLog = s.ioLog := rfl
@[simp] theorem State.code_setStack (s : State.Of W A σ) (x : σ) : (s.setStack x).code = s.code := rfl
@[simp] theorem State.stack_setStack (s : State.Of W A σ) (x : σ) : (s.setStack x).stack = some x := rfl
@[simp] theorem State.reg_setStack (s : State.Of W A σ) (x : σ) (r : RegId) : (s.setStack x).reg r = s.reg r := rfl
@[simp] theorem State.byte_setStack (s : State.Of W A σ) (x : σ) (c : BitVec A) :
    (s.setStack x).byte c = s.byte c := rfl
@[simp] theorem State.wordAt_setStack (s : State.Of W A σ) (x : σ) (c : BitVec A) :
    (s.setStack x).wordAt c = s.wordAt c := rfl
@[simp] theorem State.codeWord_setStack (p : Params W A σ) (s : State.Of W A σ) (x : σ) (c : BitVec A) :
    codeWord p (s.setStack x) c = codeWord p s c := rfl

/-- A register reads what was written to it last. -/
@[simp] theorem State.reg_setReg (s : State.Of W A σ) (d : RegId) (v : BitVec W) (r : RegId) :
    (s.setReg d v).reg r = if r = d then v else s.reg r := by
  simp only [State.Of.reg, State.Of.setReg, Vector.getElem_set, ← BitVec.toNat_inj, eq_comm]

/-- Two register files are the same when every register reads the same. -/
theorem State.regs_ext {s t : State.Of W A σ} (h : ∀ r, s.reg r = t.reg r) : s.regs = t.regs := by
  refine Vector.ext fun i hi => ?_
  simpa [State.Of.reg, Nat.mod_eq_of_lt hi] using h (BitVec.ofNat 3 i)

/-- Two states with the same registers and the same other fields are the same. -/
theorem State.ext_reg {s t : State.Of W A σ} (hr : ∀ r, s.reg r = t.reg r) (hp : s.pc = t.pc) (hz : s.z = t.z)
    (hm : s.mem = t.mem) (hf : s.fault = t.fault) (hl : s.ioLog = t.ioLog) (hc : s.code = t.code)
    (hs : s.stack = t.stack) : s = t := by
  have := State.regs_ext hr
  cases s; cases t; simp_all

end Sys2Proof.Machine
end

