-- ==== Sys2Proof/Laws/Memory.lean ====
section
/-! SUPPORT. Memory: a read after a write, that every memory operation keeps the canonical form, and that the tests
of equality decide it. -/

namespace Sys2Proof.Machine

variable {W A : Nat} {σ : Type}

theorem Memory.read_erase (m : Memory) (a b : Nat) :
    (m.erase a).read b = if b = a then Memory.unlisted else m.read b := by
  induction m with
  | nil => simp [Memory.erase, Memory.read]
  | cons c m ih =>
    simp only [Memory.erase, List.filter_cons] at ih ⊢
    by_cases h : c.1 = a
    · by_cases hb : b = a
      · simp_all
      · have : c.1 ≠ b := fun e => hb (by omega)
        simp_all [Memory.read]
    · by_cases hb : c.1 = b
      · have : b ≠ a := by omega
        simp [Memory.read, hb, this]
      · have : ¬b = c.1 := fun e => hb e.symm
        simp_all [Memory.read]

theorem Memory.read_insert (m : Memory) (a : Nat) (v : Byte) (b : Nat) (h : ∀ c ∈ m, c.1 ≠ a) :
    (m.insert a v).read b = if b = a then v else m.read b := by
  induction m with
  | nil => by_cases hb : b = a <;> simp [Memory.insert, Memory.read, hb]
  | cons c m ih =>
    simp only [List.mem_cons, forall_eq_or_imp] at h
    have ih := ih h.2
    have hc := h.1
    unfold Memory.insert
    split
    · by_cases hb : b = a <;> simp [Memory.read, hb]
    · by_cases hb : c.1 = b
      · have : b ≠ a := by omega
        simp [Memory.read, hb, this]
      · have : ¬b = c.1 := fun e => hb e.symm
        simp [Memory.read, this, ih]

theorem Memory.mem_erase {m : Memory} {a : Nat} {c : Host.Cell} : c ∈ m.erase a ↔ c ∈ m ∧ c.1 ≠ a := by
  simp [Memory.erase]

theorem Memory.mem_insert {m : Memory} {a : Nat} {v : Byte} {c : Host.Cell} :
    c ∈ m.insert a v ↔ c = (a, v) ∨ c ∈ m := by
  induction m with
  | nil => simp [Memory.insert]
  | cons d m ih =>
    unfold Memory.insert
    split <;> simp [ih, or_left_comm]

/-- A read after a write, whatever the list of cells. -/
@[simp] theorem Memory.read_write (m : Memory) (a : Nat) (v : Byte) (b : Nat) :
    (m.write a v).read b = if b = a then v else m.read b := by
  unfold Memory.write
  split
  · next h => simp [Memory.read_erase, h]
  · rw [Memory.read_insert _ _ _ _ (fun c hc => (Memory.mem_erase.1 hc).2), Memory.read_erase]
    split <;> rfl

theorem Memory.insert_pairwise {m : Memory} {a : Nat} {v : Byte} (hm : m.Pairwise (fun x y => x.1 < y.1))
    (h : ∀ c ∈ m, c.1 ≠ a) : (m.insert a v).Pairwise (fun x y => x.1 < y.1) := by
  induction m with
  | nil => simp [Memory.insert]
  | cons c m ih =>
    rw [List.pairwise_cons] at hm
    simp only [List.mem_cons, forall_eq_or_imp] at h
    unfold Memory.insert
    split
    · next hlt =>
      refine List.pairwise_cons.2 ⟨fun d hd => ?_, List.pairwise_cons.2 hm⟩
      rcases List.mem_cons.1 hd with rfl | hd
      · exact hlt
      · exact Nat.lt_trans hlt (hm.1 d hd)
    · next hge =>
      refine List.pairwise_cons.2 ⟨fun d hd => ?_, ih hm.2 h.2⟩
      rcases Memory.mem_insert.1 hd with rfl | hd
      · have := h.1
        simp only at *
        omega
      · exact hm.1 d hd

/-- A write inside the address space keeps the canonical form. -/
theorem Memory.write_wf {n : Nat} {m : Memory} (hm : m.wfAt n) {a : Nat} (ha : a < n) (v : Byte) :
    (m.write a v).wfAt n := by
  have he : (m.erase a).Pairwise (fun x y => x.1 < y.1) := hm.1.filter _
  unfold Memory.write
  split
  · exact ⟨he, fun c hc => hm.2 c (Memory.mem_erase.1 hc).1⟩
  · next h =>
    refine ⟨Memory.insert_pairwise he fun c hc => (Memory.mem_erase.1 hc).2, fun c hc => ?_⟩
    rcases Memory.mem_insert.1 hc with rfl | hc
    · exact ⟨ha, h⟩
    · exact hm.2 c (Memory.mem_erase.1 hc).1

/-- Placing a word keeps the canonical form. -/
theorem Memory.placeWord_wf {m : Memory} (hm : m.wfAt (2 ^ A)) (be : Bool) (a : BitVec A) (iw : Word) :
    (m.placeWord be a iw).wfAt (2 ^ A) := by
  cases be <;> exact Memory.write_wf (Memory.write_wf hm a.isLt _) (a + 1).isLt _

/-- Placing a program keeps the canonical form. -/
theorem Memory.placeProgram_wf {m : Memory} (hm : m.wfAt (2 ^ A)) (be : Bool) (a : BitVec A) (ws : List Word) :
    (m.placeProgram be a ws).wfAt (2 ^ A) := by
  induction ws generalizing m a with
  | nil => exact hm
  | cons iw ws ih => exact ih (Memory.placeWord_wf hm be a iw) (a + 2)

/-- The empty memory is canonical. -/
theorem Memory.nil_wf (n : Nat) : Memory.wfAt n [] := by simp [Memory.wfAt]

/-- A byte of memory after a store of one byte. -/
@[simp] theorem State.byte_setByte (s : State.Of W A σ) (a : BitVec A) (v : Byte) (c : BitVec A) :
    (s.setByte a v).byte c = if c = a then v else s.byte c := by
  simp only [State.Of.byte, State.Of.setByte, Memory.read_write, BitVec.toNat_inj]

/-- A store of one byte keeps the canonical form. -/
theorem State.setByte_wf {s : State.Of W A σ} (h : s.mem.wfAt (2 ^ A)) (a : BitVec A) (v : Byte) :
    (s.setByte a v).mem.wfAt (2 ^ A) :=
  Memory.write_wf h a.isLt v

/-- The bytes a placed word leaves behind (20_memory.md R26). -/
theorem Memory.read_placeWord (m : Memory) (be : Bool) (a : BitVec A) (iw : Word) (c : BitVec A) :
    (m.placeWord be a iw).read c.toNat =
      if c = a + 1 then (if be then secondByte iw else firstByte iw)
      else if c = a then (if be then firstByte iw else secondByte iw) else m.read c.toNat := by
  cases be <;> simp only [Memory.placeWord, Memory.read_write, BitVec.toNat_inj, if_true, Bool.false_eq_true, if_false]

/-- An address that is below every listed cell's is not listed. -/
theorem Memory.read_of_lt {m : Memory} {a : Nat} (h : ∀ c ∈ m, a < c.1) : m.read a = Memory.unlisted := by
  induction m with
  | nil => rfl
  | cons c m ih =>
    have hc := h c (by simp)
    unfold Memory.read
    rw [if_neg (by omega)]
    exact ih fun d hd => h d (by simp [hd])

/-- An address that no cell lists reads as unlisted. -/
theorem Memory.read_of_not_mem {m : Memory} {a : Nat} (h : ∀ c ∈ m, c.1 ≠ a) : m.read a = Memory.unlisted := by
  induction m with
  | nil => rfl
  | cons c m ih =>
    have hc := h c (by simp)
    unfold Memory.read
    rw [if_neg (fun e => hc e.symm)]
    exact ih fun d hd => h d (by simp [hd])

/-- The test of memories is equality of every byte below the bound (10_state.md R24). -/
theorem Memory.same_iff {n : Nat} {m m' : Memory} :
    m.same n m' = true ↔ ∀ a < n, m.read a = m'.read a := by
  simp only [Memory.same, List.all_eq_true, Bool.or_eq_true, decide_eq_true_eq, beq_iff_eq]
  constructor
  · intro h a ha
    by_cases hm : ∃ c ∈ m ++ m', c.1 = a
    · obtain ⟨c, hc, rfl⟩ := hm
      rcases h c hc with h | h
      · omega
      · exact h
    · rw [Memory.read_of_not_mem (m := m) fun c hc e => hm ⟨c, List.mem_append_left _ hc, e⟩,
        Memory.read_of_not_mem (m := m') fun c hc e => hm ⟨c, List.mem_append_right _ hc, e⟩]
  · intro h c _
    by_cases hc : n ≤ c.1
    · exact .inl hc
    · exact .inr (h c.1 (by omega))

/-- The same over the addresses of a machine. -/
theorem Memory.same_iff_bitVec {m m' : Memory} :
    m.same (2 ^ A) m' = true ↔ ∀ a : BitVec A, m.read a.toNat = m'.read a.toNat := by
  rw [Memory.same_iff]
  constructor
  · exact fun h a => h a.toNat a.isLt
  · intro h a ha
    simpa [Nat.mod_eq_of_lt ha] using h (BitVec.ofNat A a)

/-- The test of R24's equality decides it. -/
theorem sameState_iff {s t : State.Of W A σ} : sameState s t = true ↔ SameState s t := by
  simp only [sameState, SameState, Bool.and_eq_true, beq_iff_eq, Memory.same_iff_bitVec, State.Of.byte]
  constructor
  · rintro ⟨⟨⟨⟨h, h2⟩, h3⟩, h4⟩, h5⟩
    exact ⟨fun r => by simp [State.Of.reg, h], h2, h3, h4, h5⟩
  · rintro ⟨h, h2, h3, h4, h5⟩
    exact ⟨⟨⟨⟨State.regs_ext h, h2⟩, h3⟩, h4⟩, h5⟩

/-- The test of equality under any parameters decides it. -/
theorem sameUnder_iff [DecidableEq σ] {p : Params W A σ} {s t : State.Of W A σ} :
    sameUnder p s t = true ↔ SameUnder p s t := by
  simp only [sameUnder, SameUnder, Bool.and_eq_true, Bool.or_eq_true, sameState_iff, Memory.same_iff_bitVec,
    beq_iff_eq, and_assoc]
  cases p.unifiedMemory <;> cases p.retModel <;> simp

/-- A state is the same as itself. -/
theorem SameUnder.refl (p : Params W A σ) (s : State.Of W A σ) : SameUnder p s s :=
  ⟨⟨fun _ => rfl, rfl, rfl, fun _ => rfl, rfl⟩, fun _ _ => rfl, fun _ => rfl⟩

end Sys2Proof.Machine
end

