-- ==== Sys2Proof/Laws/Ops.lean ====
section
/-! SUPPORT. What the shared operations do: accesses and fetch under any parameters and under the decided ones,
the end of an ALU instruction, a branch, RET. -/

namespace Sys2Proof.Machine

variable {W A : Nat} {σ : Type}

/-! ### The decided parameters -/

@[simp] theorem Config.unifiedMemory_params : Config.params.unifiedMemory = true := rfl
@[simp] theorem Config.fetchBigEndian_params : Config.params.fetchBigEndian = true := rfl
@[simp] theorem Config.aluWritesZ_params : Config.params.aluWritesZ = false := rfl
@[simp] theorem Config.reservedNonzero_params : Config.params.reservedNonzero = .fault := rfl
@[simp] theorem Config.retModel_params : Config.params.retModel = none := rfl
@[simp] theorem Config.resetPc_params : Config.params.resetPc = 0 := rfl
@[simp] theorem Config.memMap_params (a : Addr) : Config.params.memMap a = .ram := rfl

@[simp] theorem decodeWith_fault (iw : Word) : decodeWith .fault iw = decodeWord iw := rfl
@[simp] theorem memRead_params (a : Addr) (s : State) : memRead Config.params a s = .ok (s.byte a, s) := rfl
@[simp] theorem memWrite_params (a : Addr) (v : Byte) (s : State) :
    memWrite Config.params a v s = .ok (s.setByte a v) := rfl
@[simp] theorem codeWord_params (s : State) (a : Addr) : codeWord Config.params s a = s.wordAt a := rfl
@[simp] theorem fetch_params (s : State) : fetch Config.params s = .ok (s.wordAt s.pc) := rfl
@[simp] theorem State.writeAlu_params (d : RegId) (v : Byte) (s : State) :
    s.writeAlu Config.params d v = (s.setReg d v).advance := rfl

/-- A register of 8 bits is a byte (20_memory.md R35). -/
@[simp] theorem regOfByte_eight (v : Byte) : regOfByte 8 v = v := BitVec.setWidth_eq v
@[simp] theorem byteOfReg_eight (v : BitVec 8) : byteOfReg v = v := BitVec.setWidth_eq v

/-! ### Accesses -/

@[simp] theorem State.oddPc_eq_true (s : State.Of W A σ) : s.oddPc = true ↔ s.pc.toNat % 2 = 1 := by simp [State.Of.oddPc]
@[simp] theorem State.oddPc_eq_false (s : State.Of W A σ) : s.oddPc = false ↔ s.pc.toNat % 2 = 0 := by
  rw [Bool.eq_false_iff, Ne, State.oddPc_eq_true]
  omega

/-- Everything a read that answers can do (20_memory.md R30). -/
theorem memRead_ok {p : Params W A σ} {a : BitVec A} {s t : State.Of W A σ} {v : Byte}
    (h : memRead p a s = .ok (v, t)) :
    ((p.memMap a = .ram ∨ p.memMap a = .rom) ∧ v = s.byte a ∧ t = s) ∨
      (p.memMap a = .io ∧ v = Config.ioDraw s.ioLog.length a.toNat ∧ t = s.logIo (.read a v)) := by
  unfold memRead at h
  split at h <;> cases h <;> simp_all

/-- Everything a read that raises can do (R30). -/
theorem memRead_error {p : Params W A σ} {a : BitVec A} {s : State.Of W A σ} {f : Fault.Of A}
    (h : memRead p a s = .error f) :
    p.memMap a = .unmapped ∧ f = .accessFault a .read := by
  unfold memRead at h
  split at h <;> cases h
  simp_all

/-- Everything a write that answers can do (R31). -/
theorem memWrite_ok {p : Params W A σ} {a : BitVec A} {v : Byte} {s t : State.Of W A σ}
    (h : memWrite p a v s = .ok t) :
    (p.memMap a = .ram ∧ t = s.setByte a v) ∨ (p.memMap a = .io ∧ t = s.logIo (.write a v)) := by
  unfold memWrite at h
  split at h <;> cases h <;> simp_all

/-- Everything a write that raises can do (R31). -/
theorem memWrite_error {p : Params W A σ} {a : BitVec A} {v : Byte} {s : State.Of W A σ} {f : Fault.Of A}
    (h : memWrite p a v s = .error f) :
    (p.memMap a = .rom ∨ p.memMap a = .unmapped) ∧ f = .accessFault a .write := by
  unfold memWrite at h
  split at h <;> cases h <;> simp_all

/-- Everything a fetch that answers can do (R32). -/
theorem fetch_ok {p : Params W A σ} {s : State.Of W A σ} {iw : Word} (h : fetch p s = .ok iw) :
    fetchable p s.pc ∧ fetchable p (s.pc + 1) ∧ iw = codeWord p s s.pc := by
  unfold fetch at h
  split at h
  · split at h <;> cases h
    simp_all
  · cases h

/-- Everything a fetch that raises can do (R32). -/
theorem fetch_error {p : Params W A σ} {s : State.Of W A σ} {f : Fault.Of A} (h : fetch p s = .error f) :
    (fetchable p s.pc = false ∧ f = .accessFault s.pc .fetch) ∨
      (fetchable p s.pc = true ∧ fetchable p (s.pc + 1) = false ∧ f = .accessFault (s.pc + 1) .fetch) := by
  unfold fetch at h
  split at h
  · split at h <;> cases h
    simp_all
  · cases h
    simp_all

/-! ### The end of an ALU instruction (R64, R71) -/

@[simp] theorem State.reg_setAluZ (p : Params W A σ) (v : BitVec W) (s : State.Of W A σ) (r : RegId) :
    (s.setAluZ p v).reg r = s.reg r := by unfold State.Of.setAluZ; split <;> rfl
@[simp] theorem State.pc_setAluZ (p : Params W A σ) (v : BitVec W) (s : State.Of W A σ) : (s.setAluZ p v).pc = s.pc := by
  unfold State.Of.setAluZ; split <;> rfl
@[simp] theorem State.mem_setAluZ (p : Params W A σ) (v : BitVec W) (s : State.Of W A σ) : (s.setAluZ p v).mem = s.mem := by
  unfold State.Of.setAluZ; split <;> rfl
@[simp] theorem State.fault_setAluZ (p : Params W A σ) (v : BitVec W) (s : State.Of W A σ) : (s.setAluZ p v).fault = s.fault := by
  unfold State.Of.setAluZ; split <;> rfl
@[simp] theorem State.ioLog_setAluZ (p : Params W A σ) (v : BitVec W) (s : State.Of W A σ) : (s.setAluZ p v).ioLog = s.ioLog := by
  unfold State.Of.setAluZ; split <;> rfl
@[simp] theorem State.code_setAluZ (p : Params W A σ) (v : BitVec W) (s : State.Of W A σ) :
    (s.setAluZ p v).code = s.code := by unfold State.Of.setAluZ; split <;> rfl
@[simp] theorem State.stack_setAluZ (p : Params W A σ) (v : BitVec W) (s : State.Of W A σ) :
    (s.setAluZ p v).stack = s.stack := by unfold State.Of.setAluZ; split <;> rfl
@[simp] theorem State.byte_setAluZ (p : Params W A σ) (v : BitVec W) (s : State.Of W A σ) (a : BitVec A) :
    (s.setAluZ p v).byte a = s.byte a := by unfold State.Of.setAluZ; split <;> rfl
@[simp] theorem State.z_setAluZ (p : Params W A σ) (v : BitVec W) (s : State.Of W A σ) :
    (s.setAluZ p v).z = if p.aluWritesZ then zeroFlag v else s.z := by
  unfold State.Of.setAluZ; split <;> rfl

@[simp] theorem State.reg_writeAlu (p : Params W A σ) (d : RegId) (v : BitVec W) (s : State.Of W A σ) (r : RegId) :
    (s.writeAlu p d v).reg r = if r = d then v else s.reg r := by simp [State.Of.writeAlu]
@[simp] theorem State.pc_writeAlu (p : Params W A σ) (d : RegId) (v : BitVec W) (s : State.Of W A σ) :
    (s.writeAlu p d v).pc = s.pc + 2 := by simp [State.Of.writeAlu]
@[simp] theorem State.mem_writeAlu (p : Params W A σ) (d : RegId) (v : BitVec W) (s : State.Of W A σ) :
    (s.writeAlu p d v).mem = s.mem := by simp [State.Of.writeAlu]
@[simp] theorem State.fault_writeAlu (p : Params W A σ) (d : RegId) (v : BitVec W) (s : State.Of W A σ) :
    (s.writeAlu p d v).fault = s.fault := by simp [State.Of.writeAlu]
@[simp] theorem State.ioLog_writeAlu (p : Params W A σ) (d : RegId) (v : BitVec W) (s : State.Of W A σ) :
    (s.writeAlu p d v).ioLog = s.ioLog := by simp [State.Of.writeAlu]
@[simp] theorem State.code_writeAlu (p : Params W A σ) (d : RegId) (v : BitVec W) (s : State.Of W A σ) :
    (s.writeAlu p d v).code = s.code := by simp [State.Of.writeAlu]
@[simp] theorem State.stack_writeAlu (p : Params W A σ) (d : RegId) (v : BitVec W) (s : State.Of W A σ) :
    (s.writeAlu p d v).stack = s.stack := by simp [State.Of.writeAlu]
@[simp] theorem State.byte_writeAlu (p : Params W A σ) (d : RegId) (v : BitVec W) (s : State.Of W A σ) (a : BitVec A) :
    (s.writeAlu p d v).byte a = s.byte a := by simp [State.Of.writeAlu]
@[simp] theorem State.z_writeAlu (p : Params W A σ) (d : RegId) (v : BitVec W) (s : State.Of W A σ) :
    (s.writeAlu p d v).z = if p.aluWritesZ then zeroFlag v else s.z := by simp [State.Of.writeAlu]

/-- The zero flag of a wrapped difference is equality (R69). -/
theorem compareFlag_iff (a b : BitVec W) : compareFlag a b = true ↔ a = b := by
  simp [compareFlag, zeroFlag, BitVec.sub_eq_iff_eq_add]

/-! ### Branches (R83) and RET (R90) -/

@[simp] theorem State.reg_branch (k : Bool) (off : Byte) (s : State.Of W A σ) (r : RegId) :
    (s.branch k off).reg r = s.reg r := by cases k <;> rfl
@[simp] theorem State.pc_branch (k : Bool) (off : Byte) (s : State.Of W A σ) :
    (s.branch k off).pc = if k then jumpTarget s.pc off else s.pc + 2 := by cases k <;> rfl
@[simp] theorem State.z_branch (k : Bool) (off : Byte) (s : State.Of W A σ) : (s.branch k off).z = s.z := by cases k <;> rfl
@[simp] theorem State.mem_branch (k : Bool) (off : Byte) (s : State.Of W A σ) : (s.branch k off).mem = s.mem := by
  cases k <;> rfl
@[simp] theorem State.fault_branch (k : Bool) (off : Byte) (s : State.Of W A σ) : (s.branch k off).fault = s.fault := by
  cases k <;> rfl
@[simp] theorem State.ioLog_branch (k : Bool) (off : Byte) (s : State.Of W A σ) : (s.branch k off).ioLog = s.ioLog := by
  cases k <;> rfl

@[simp] theorem State.code_branch (k : Bool) (off : Byte) (s : State.Of W A σ) : (s.branch k off).code = s.code := by
  cases k <;> rfl
@[simp] theorem State.stack_branch (k : Bool) (off : Byte) (s : State.Of W A σ) :
    (s.branch k off).stack = s.stack := by cases k <;> rfl
@[simp] theorem State.byte_branch (k : Bool) (off : Byte) (s : State.Of W A σ) (a : BitVec A) :
    (s.branch k off).byte a = s.byte a := by cases k <;> rfl

/-- Everything RET can do under any parameters (R90, R91). -/
theorem retUnder_cases {p : Params W A σ} {s t : State.Of W A σ} (h : retUnder p s = .next t) :
    (p.retModel = none ∧ t = s.raise (.retStackUndefined s.pc)) ∨
      ∃ m, p.retModel = some m ∧
        ((∃ a x, m.pop (s.stack.getD m.reset) s.byte = .ok (a, x) ∧ t = (s.setStack x).setPc a) ∨
          ∃ f, m.pop (s.stack.getD m.reset) s.byte = .error f ∧ t = s.raise f) := by
  unfold retUnder at h
  split at h
  · next hm => cases h; exact .inl ⟨hm, rfl⟩
  · next m hm =>
    refine .inr ⟨m, hm, ?_⟩
    split at h <;> cases h
    · exact .inl ⟨_, _, ‹_›, rfl⟩
    · exact .inr ⟨_, ‹_›, rfl⟩

end Sys2Proof.Machine
end

