-- ==== Sys2Proof/Laws/Exec.lean ====
section
/-! SUPPORT. What each instruction answers under the decided parameters, that `exec` and `step` are the
parameterised machine at those parameters, and everything one step can do. -/

namespace Sys2Proof.Machine

variable {W A : Nat} {σ : Type}

theorem exec_add (d r : RegId) (s : State) :
    exec (.add d r) s = .next (s.setReg d (s.reg d + s.reg r)).advance := rfl
theorem exec_sub (d r : RegId) (s : State) :
    exec (.sub d r) s = .next (s.setReg d (s.reg d - s.reg r)).advance := rfl
theorem exec_and (d r : RegId) (s : State) :
    exec (.and d r) s = .next (s.setReg d (s.reg d &&& s.reg r)).advance := rfl
theorem exec_or (d r : RegId) (s : State) :
    exec (.or d r) s = .next (s.setReg d (s.reg d ||| s.reg r)).advance := rfl
theorem exec_cmp (d r : RegId) (s : State) :
    exec (.cmp d r) s = .next (s.setZ (compareFlag (s.reg d) (s.reg r))).advance := rfl
theorem exec_movi (d : RegId) (imm : Byte) (s : State) : exec (.movi d imm) s = .next (s.setReg d imm).advance := rfl
theorem exec_addi (d : RegId) (imm : Byte) (s : State) :
    exec (.addi d imm) s = .next (s.setReg d (s.reg d + imm)).advance := rfl
theorem exec_subi (d : RegId) (imm : Byte) (s : State) :
    exec (.subi d imm) s = .next (s.setReg d (s.reg d - imm)).advance := rfl
theorem exec_andi (d : RegId) (imm : Byte) (s : State) :
    exec (.andi d imm) s = .next (s.setReg d (s.reg d &&& imm)).advance := rfl
theorem exec_ori (d : RegId) (imm : Byte) (s : State) :
    exec (.ori d imm) s = .next (s.setReg d (s.reg d ||| imm)).advance := rfl
theorem exec_load (d b : RegId) (off : Off4) (s : State) :
    exec (.load d b off) s = .next (s.setReg d (s.byte (effAddr s b off))).advance := rfl
theorem exec_store (d b : RegId) (off : Off4) (s : State) :
    exec (.store d b off) s = .next (s.setByte (effAddr s b off) (s.reg d)).advance := rfl
theorem exec_jmp (off : Byte) (s : State) : exec (.jmp off) s = .next (s.setPc (jumpTarget s.pc off)) := rfl
theorem exec_jz (off : Byte) (s : State) : exec (.jz off) s = .next (s.branch s.z off) := rfl
theorem exec_jnz (off : Byte) (s : State) : exec (.jnz off) s = .next (s.branch (!s.z) off) := rfl
theorem exec_ret (s : State) : exec .ret s = .next (s.raise (.retStackUndefined s.pc)) := rfl

/-- `exec` is the parameterised machine at the decided parameters (00_scope.md R5). -/
theorem exec_eq_execUnder (i : Instr) (s : State) : exec i s = execUnder Config.params i s := by cases i <;> rfl

/-- `step` is the parameterised machine at the decided parameters. -/
theorem step_eq_stepUnder (s : State) : step s = stepUnder Config.params s := by
  have : exec = execUnder Config.params := by funext i s; exact exec_eq_execUnder i s
  simp [step, stepUnder, this]

/-- Everything LOAD can do under any parameters (R79). -/
theorem loadUnder_cases {p : Params W A σ} {d b : RegId} {off : Off4} {s t : State.Of W A σ}
    (h : loadUnder p d b off s = .next t) :
    (∃ v u, memRead p (effAddr s b off) s = .ok (v, u) ∧ t = (u.setReg d (regOfByte W v)).advance) ∨
      (∃ f, memRead p (effAddr s b off) s = .error f ∧ t = s.raise f) := by
  unfold loadUnder at h
  split at h <;> cases h
  · exact .inl ⟨_, _, ‹_›, rfl⟩
  · exact .inr ⟨_, ‹_›, rfl⟩

/-- Everything STORE can do under any parameters (R80). -/
theorem storeUnder_cases {p : Params W A σ} {d b : RegId} {off : Off4} {s t : State.Of W A σ}
    (h : storeUnder p d b off s = .next t) :
    (∃ u, memWrite p (effAddr s b off) (byteOfReg (s.reg d)) s = .ok u ∧ t = u.advance) ∨
      (∃ f, memWrite p (effAddr s b off) (byteOfReg (s.reg d)) s = .error f ∧ t = s.raise f) := by
  unfold storeUnder at h
  split at h <;> cases h
  · exact .inl ⟨_, ‹_›, rfl⟩
  · exact .inr ⟨_, ‹_›, rfl⟩

/-- Everything one cycle that answers a next state can do (10_state.md R14, 60_exceptions.md R96): raise one of
the three faults of the fetch and the decoder, or run the decoded instruction. -/
theorem cycle_cases {p : Params W A σ} {run : Instr → State.Of W A σ → ResultOf W A σ} {s t : State.Of W A σ}
    (h : cycle p run s = .next t) :
    s.fault = none ∧
      ((s.pc.toNat % 2 = 1 ∧ t = s.raise (.misalignedFetch s.pc)) ∨
        (s.pc.toNat % 2 = 0 ∧ ∃ f, fetch p s = .error f ∧ t = s.raise f) ∨
        (s.pc.toNat % 2 = 0 ∧ fetch p s = .ok (codeWord p s s.pc) ∧
          (∃ e, decodeWith p.reservedNonzero (codeWord p s s.pc) = .error e) ∧
          t = s.raise (.illegalInstruction s.pc (codeWord p s s.pc))) ∨
        (s.pc.toNat % 2 = 0 ∧ fetch p s = .ok (codeWord p s s.pc) ∧
          ∃ i, decodeWith p.reservedNonzero (codeWord p s s.pc) = .ok i ∧ run i s = .next t)) := by
  unfold cycle at h
  split at h
  · cases h
  · next hf =>
    refine ⟨hf, ?_⟩
    split at h
    · next hp => cases h; exact .inl ⟨(State.oddPc_eq_true s).1 hp, rfl⟩
    · next hp =>
      have hp : s.pc.toNat % 2 = 0 := (State.oddPc_eq_false s).1 (by simpa using hp)
      split at h
      · next f he => cases h; exact .inr (.inl ⟨hp, f, he, rfl⟩)
      · next iw he =>
        obtain ⟨-, -, rfl⟩ := fetch_ok he
        split at h
        · next e hd => cases h; exact .inr (.inr (.inl ⟨hp, he, ⟨e, hd⟩, rfl⟩))
        · next i hd => exact .inr (.inr (.inr ⟨hp, he, i, hd, h⟩))

/-- A set reserved bit is the only way a word is illegal, and the error names the word (R57). -/
theorem decodeWord_error {iw : Word} {e : DecodeError} (h : decodeWord iw = .error e) :
    iw &&& reservedMask (formatOf (opField iw)) ≠ 0 ∧ e = .reservedNonzero iw := by
  unfold decodeWord at h
  split at h <;> cases h
  exact ⟨‹_›, rfl⟩

/-- A decoded word has no reserved bit set and is the opcode map's instruction (R54, R58). -/
theorem decodeWord_ok {iw : Word} {i : Instr} (h : decodeWord iw = .ok i) :
    iw &&& reservedMask (formatOf (opField iw)) = 0 ∧ i = instrOf iw := by
  unfold decodeWord at h
  split at h <;> cases h
  exact ⟨‹_›, rfl⟩

end Sys2Proof.Machine
end

