-- ==== Sys2Proof/Laws/PerInstr.lean ====
section
/-! SUPPORT. The family `ReservedZero`: an encoded instruction has every reserved bit of its format 0, as an
encoder must set them (30_encoding.md R44 to R48, R56). -/

namespace Sys2Proof.Laws.ReservedZero

/-- The encoded word's reserved bits are 0. -/
def Statement (i : Instr) : Prop := encode i &&& reservedMask (formatOf (opcodeOf i)) = 0

theorem packA_reserved (op : Opcode) (d s : RegId) : packA op d s &&& 0x088F#16 = 0 := by
  ext i hi
  interval_cases i <;> simp [getElem_packA]

theorem packB_reserved (op : Opcode) (d : RegId) (imm : Byte) : packB op d imm &&& 0x0800#16 = 0 := by
  ext i hi
  interval_cases i <;> simp [getElem_packB]

theorem packC_reserved (op : Opcode) (d b : RegId) (off : Off4) : packC op d b off &&& 0x0880#16 = 0 := by
  ext i hi
  interval_cases i <;> simp [getElem_packC]

theorem packD_reserved (op : Opcode) (off : Byte) : packD op off &&& 0x0F00#16 = 0 := by
  ext i hi
  interval_cases i <;> simp [getElem_packD]

theorem add (d s : RegId) : Statement (.add d s) := packA_reserved _ d s
theorem sub (d s : RegId) : Statement (.sub d s) := packA_reserved _ d s
theorem and (d s : RegId) : Statement (.and d s) := packA_reserved _ d s
theorem or (d s : RegId) : Statement (.or d s) := packA_reserved _ d s
theorem cmp (d s : RegId) : Statement (.cmp d s) := packA_reserved _ d s
theorem movi (d : RegId) (imm : Byte) : Statement (.movi d imm) := packB_reserved _ d imm
theorem addi (d : RegId) (imm : Byte) : Statement (.addi d imm) := packB_reserved _ d imm
theorem subi (d : RegId) (imm : Byte) : Statement (.subi d imm) := packB_reserved _ d imm
theorem andi (d : RegId) (imm : Byte) : Statement (.andi d imm) := packB_reserved _ d imm
theorem ori (d : RegId) (imm : Byte) : Statement (.ori d imm) := packB_reserved _ d imm
theorem load (d b : RegId) (off : Off4) : Statement (.load d b off) := packC_reserved _ d b off
theorem store (d b : RegId) (off : Off4) : Statement (.store d b off) := packC_reserved _ d b off
theorem jmp (off : Byte) : Statement (.jmp off) := packD_reserved _ off
theorem jz (off : Byte) : Statement (.jz off) := packD_reserved _ off
theorem jnz (off : Byte) : Statement (.jnz off) := packD_reserved _ off
theorem ret : Statement .ret := packD_reserved _ 0

end Sys2Proof.Laws.ReservedZero
end

