-- ==== Sys2Proof/Laws/Run.lean ====
section
/-! SUPPORT. Where an instruction leaves the pc, and the equations of the host's run and of the executor under
fuel. -/

namespace Sys2Proof.Machine

variable {W A : Nat} {σ : Type}

/-- Everything an instruction can do to the pc (10_state.md R14): advance it, set it to the target of a taken
jump, or, for RET, leave it. -/
theorem exec_pc_cases {i : Instr} {s t : State} (h : exec i s = .next t) :
    t.pc = s.pc + 2 ∨
      (∃ off, (i = .jmp off ∨ (i = .jz off ∧ s.z = true) ∨ (i = .jnz off ∧ s.z = false)) ∧
        t.pc = jumpTarget s.pc off) ∨
      (i = .ret ∧ t.pc = s.pc) := by
  cases i <;>
    simp only [exec_add, exec_sub, exec_and, exec_or, exec_cmp, exec_movi, exec_addi, exec_subi, exec_andi, exec_ori,
      exec_load, exec_store, exec_jmp, exec_jz, exec_jnz, exec_ret, Host.Outcome.next.injEq] at h <;>
    subst h
  case jz off => cases hz : s.z <;> simp [State.Of.branch]
  case jnz off => cases hz : s.z <;> simp [State.Of.branch]
  all_goals simp

/-- One step of the host's run. -/
theorem host_run_succ (M : Host.Core) (n : Nat) {s t : M.State} (h : M.step s = .next t) :
    M.run (n + 1) s = M.run n t := by
  simp [Host.Core.run, h]

/-- One step of a run of Chunks-8. -/
theorem core_run_succ (n : Nat) {s t : State} (h : step s = .next t) :
    Sys2Proof.core.run (n + 1) s = Sys2Proof.core.run n t := host_run_succ Sys2Proof.core n h

/-- The executor stops at once at an abnormal end. -/
theorem runFuelUnder_abnormal {p : Params W A σ} {ended : State.Of W A σ → Bool} (n : Nat) {s : State.Of W A σ}
    (h : endedAbnormally s = true) : runFuelUnder p ended n s = .abnormal s := by
  unfold runFuelUnder
  simp [h]

/-- The executor stops at once at a normal end. -/
theorem runFuelUnder_normal {p : Params W A σ} {ended : State.Of W A σ → Bool} (n : Nat) {s : State.Of W A σ}
    (h : endedAbnormally s = false) (h' : ended s = true) : runFuelUnder p ended n s = .normal s := by
  unfold runFuelUnder
  simp [h, h']

/-- Without fuel the executor reports that it ran out. -/
theorem runFuelUnder_zero {p : Params W A σ} {ended : State.Of W A σ → Bool} {s : State.Of W A σ}
    (h : endedAbnormally s = false) (h' : ended s = false) : runFuelUnder p ended 0 s = .outOfFuel s := by
  unfold runFuelUnder
  simp [h, h']

/-- With fuel the executor goes on from the next state. -/
theorem runFuelUnder_succ {p : Params W A σ} {ended : State.Of W A σ → Bool} (n : Nat) {s t : State.Of W A σ}
    (h : endedAbnormally s = false) (h' : ended s = false) (hs : stepUnder p s = .next t) :
    runFuelUnder p ended (n + 1) s = runFuelUnder p ended n t := by
  conv_lhs => unfold runFuelUnder
  simp [h, h', hs]

/-- The end of a run under any parameters (R112): no fault, and the step yields the state again. -/
theorem endedNormallyUnder_iff [DecidableEq σ] {p : Params W A σ} {s : State.Of W A σ} :
    endedNormallyUnder p s = true ↔ s.fault = none ∧ ∃ t, stepUnder p s = .next t ∧ SameUnder p s t := by
  unfold endedNormallyUnder
  split
  · next t h1 h2 => simp [h1, h2, sameUnder_iff]
  · next h =>
    simp only [Bool.false_eq_true, false_iff, not_and, not_exists]
    exact fun h1 t h2 => absurd h2 (h t h1)

end Sys2Proof.Machine
end

