-- ==== Sys2Proof/Tests/Slice0.lean ====
section
/-! SUPPORT. The model's own tests. Expected values come from spec/95_test_vectors.md (S, V and P numbers below)
or are worked out by hand from the rule named; the witnesses meet the hypotheses of the statements. -/

namespace Sys2Proof.Machine.Tests

/-- An instruction word placed at `pc` in a machine whose registers and flag are 0. -/
def at_ (pc : Addr) (iw : Word) : State :=
  State.withFetchWord ((State.launch Config.params (Vector.replicate 8 0) false [] []).setPc pc) 16 iw.toNat

/-- The next state of a result, if there is one. -/
def next? {W A : Nat} {σ : Type} : ResultOf W A σ → Option (State.Of W A σ)
  | .next t => some t
  | _ => none

/-- Some register, the pc, the flag and the fault after one step. -/
def view (r : RegId) (s : State) : Option (Byte × Addr × Bool × Option Fault) :=
  (next? (step s)).map fun t => (t.reg r, t.pc, t.z, t.fault)

/-- Some byte of memory, the pc and the fault after one step. -/
def viewMem (a : Addr) (s : State) : Option (Byte × Addr × Option Fault) :=
  (next? (step s)).map fun t => (t.byte a, t.pc, t.fault)

/-! ### Decoding: words written out bit by bit from 30_encoding.md R45 to R48 and R53 -/

theorem test_decode_typeA :
    decodeWord 0b0000_0_011_0_001_0000 = .ok (.add 3 1) ∧ decodeWord 0b0001_0_010_0_111_0000 = .ok (.sub 2 7) ∧
    decodeWord 0b0010_0_100_0_110_0000 = .ok (.and 4 6) ∧ decodeWord 0b0011_0_110_0_101_0000 = .ok (.or 6 5) ∧
    decodeWord 0b0100_0_111_0_001_0000 = .ok (.cmp 7 1) := by decide

theorem test_decode_typeB :
    decodeWord 0b0101_0_100_0011_1100 = .ok (.movi 4 0x3C) ∧ decodeWord 0b0110_0_001_0110_0100 = .ok (.addi 1 100) ∧
    decodeWord 0b0111_0_001_0000_0111 = .ok (.subi 1 7) ∧ decodeWord 0b1000_0_100_0011_1100 = .ok (.andi 4 0x3C) ∧
    decodeWord 0b1001_0_011_0000_1111 = .ok (.ori 3 0x0F) := by decide

theorem test_decode_typeC :
    decodeWord 0b1010_0_010_0_101_1010 = .ok (.load 2 5 10) ∧
    decodeWord 0b1011_0_010_0_001_0011 = .ok (.store 2 1 3) := by decide

theorem test_decode_typeD :
    decodeWord 0b1100_0000_1111_1000 = .ok (.jmp 0xF8) ∧ decodeWord 0b1101_0000_0001_0000 = .ok (.jz 0x10) ∧
    decodeWord 0b1110_0000_1111_1000 = .ok (.jnz 0xF8) ∧ decodeWord 0b1111_0000_0000_0000 = .ok .ret ∧
    decodeWord 0b1111_0000_0101_1010 = .ok .ret := by decide

/-- V25 to V27, V47, V61, V62, V78 to V81: each reserved bit makes a word illegal. -/
theorem test_decode_reserved :
    [0x0311, 0x0390, 0x0B10, 0x5C3C, 0xA2DA, 0xBA13, 0xF100, 0xC1F8, 0xE25A, 0xFFFF].map decodeWord =
      [0x0311, 0x0390, 0x0B10, 0x5C3C, 0xA2DA, 0xBA13, 0xF100, 0xC1F8, 0xE25A, 0xFFFF].map
        (fun iw => .error (.reservedNonzero iw)) := by decide

/-- R42: less than two bytes are no instruction; R26: the first byte is the high one. -/
theorem test_decode_bytes :
    decode [0x03] = .error .truncated ∧ decode [] = .error .truncated ∧
    decode [0x03, 0x10, 0xFF] = .ok (.add 3 1, [0xFF]) ∧ encodeBytes (.add 3 1) = [0x03, 0x10] := by decide

theorem test_decodeTableWord :
    decodeTableWord 16 0xB213 = some (.store 2 1 3) ∧ decodeTableWord 16 0xE25A = none := by decide

/-! ### Well-formedness: an ill-formed term for each check (R63, R22) -/

theorem test_wellFormed_refuses :
    AsmLine.wellFormed (.typeA .add 8 0) = false ∧ AsmLine.wellFormed (.typeA .add 0 8) = false ∧
    AsmLine.wellFormed (.typeB .movi 8 0) = false ∧ AsmLine.wellFormed (.typeB .movi 0 256) = false ∧
    AsmLine.wellFormed (.typeC .load 8 0 0) = false ∧ AsmLine.wellFormed (.typeC .load 0 8 0) = false ∧
    AsmLine.wellFormed (.typeC .load 0 0 16) = false ∧ AsmLine.wellFormed (.typeD .jmp 128) = false ∧
    AsmLine.wellFormed (.typeD .jmp (-129)) = false ∧
    Params.wellFormed ({ Config.params with resetPc := 1 } : Params 8 8 Empty) = false := by decide

theorem test_wellFormed_accepts :
    AsmLine.wellFormed (.typeA .cmp 7 7) = true ∧ AsmLine.wellFormed (.typeB .ori 7 255) = true ∧
    AsmLine.wellFormed (.typeC .store 7 7 15) = true ∧ AsmLine.wellFormed (.typeD .jz (-128)) = true ∧
    AsmLine.wellFormed (.typeD .jnz 127) = true ∧ AsmLine.wellFormed .ret = true ∧
    Params.wellFormed Config.params = true := by decide

/-- S1 to S5 and R61, R63: the source's five examples, corrected, as lines, words and text. -/
theorem test_assembler :
    (assemble (.typeD .jmp (-8))).map encode = some 0xC0F8 ∧ (assemble (.typeC .load 2 5 10)).map encode = some 0xA25A ∧
    [asmText (.add 3 1), asmText (.movi 4 0x3C), asmText (.load 2 5 10), asmText (.jz 0x10), asmText (.jmp 0xF8)] =
      ["ADD R3, R1", "MOVI R4, #0x3C", "LOAD R2, [R5 + 10]", "JZ +0x10", "JMP -0x08"] := by decide

/-! ### One step of each instruction -/

/-- V1 and V5. -/
theorem test_add : view 3 (((at_ 0x10 0x0310).setReg 3 0x05).setReg 1 0x07) = some (0x0C, 0x12, false, none) := by decide
theorem test_add_same : view 1 ((at_ 0x10 0x0110).setReg 1 0x81) = some (0x02, 0x12, false, none) := by decide
/-- V8. -/
theorem test_sub : view 2 (((at_ 0x10 0x1270).setReg 2 0x10).setReg 7 0x20) = some (0xF0, 0x12, false, none) := by decide
/-- V13. -/
theorem test_and : view 0 (((at_ 0x10 0x2010).setReg 0 0xCC).setReg 1 0xAA) = some (0x88, 0x12, false, none) := by decide
/-- V16. -/
theorem test_or : view 0 (((at_ 0x10 0x3010).setReg 0 0xCC).setReg 1 0xAA) = some (0xEE, 0x12, false, none) := by decide
/-- V22 and V24. -/
theorem test_cmp_equal : view 1 (((at_ 0x10 0x4120).setReg 1 0xFF).setReg 2 0xFF) = some (0xFF, 0x12, true, none) := by decide
theorem test_cmp_differ :
    view 1 ((((at_ 0x10 0x4120).setReg 1 0x01).setReg 2 0xFF).setZ true) = some (0x01, 0x12, false, none) := by decide
/-- V29. -/
theorem test_movi : view 0 ((at_ 0x10 0x5000).setReg 0 0xFF) = some (0x00, 0x12, false, none) := by decide
/-- V33. -/
theorem test_addi : view 0 ((at_ 0x10 0x6064).setReg 0 0xC8) = some (0x2C, 0x12, false, none) := by decide
/-- V37 and V40. -/
theorem test_subi_wraps : view 1 (at_ 0x10 0x7101) = some (0xFF, 0x12, false, none) := by decide
theorem test_subi_leaves_z : view 1 ((at_ 0x10 0x7101).setReg 1 0x01) = some (0x00, 0x12, false, none) := by decide
/-- V41. -/
theorem test_andi : view 4 ((at_ 0x10 0x843C).setReg 4 0xF5) = some (0x34, 0x12, false, none) := by decide
/-- V44. -/
theorem test_ori : view 3 ((at_ 0x10 0x930F).setReg 3 0xA5) = some (0xAF, 0x12, false, none) := by decide
/-- V51 and V52. -/
theorem test_load_wraps :
    view 2 (((at_ 0x10 0xA25A).setReg 5 0xFA).setByte 0x04 0x42) = some (0x42, 0x12, false, none) := by decide
theorem test_load_base_is_destination :
    view 1 (((at_ 0x10 0xA110).setReg 1 0x40).setByte 0x40 0x9C) = some (0x9C, 0x12, false, none) := by decide
/-- V58 and V60. -/
theorem test_store_wraps :
    viewMem 0x00 (((at_ 0x10 0xB071).setReg 7 0xFF).setReg 0 0x5A) = some (0x5A, 0x12, none) := by decide
theorem test_store_over_itself : viewMem 0x10 ((at_ 0x10 0xB010).setReg 1 0x10) = some (0x00, 0x12, none) := by decide
/-- V67 and V69. -/
theorem test_jmp_far : view 0 (at_ 0x20 0xC080) = some (0, 0xA2, false, none) := by decide
theorem test_jmp_wraps : view 0 (at_ 0x02 0xC0F8) = some (0, 0xFC, false, none) := by decide
/-- V71 and V73. -/
theorem test_jz_taken : view 0 ((at_ 0x08 0xD010).setZ true) = some (0, 0x1A, true, none) := by decide
theorem test_jz_not_taken : view 0 (at_ 0x08 0xD003) = some (0, 0x0A, false, none) := by decide
/-- V74 and V75. -/
theorem test_jnz_taken : view 0 (at_ 0x0C 0xE0F8) = some (0, 0x06, false, none) := by decide
theorem test_jnz_not_taken : view 0 ((at_ 0x0C 0xE0F8).setZ true) = some (0, 0x0E, true, none) := by decide
/-- V77. -/
theorem test_ret : view 0 (at_ 0x02 0xF05A) = some (0, 0x02, false, some (.retStackUndefined 0x02)) := by decide
/-- V79, V82, V83. -/
theorem test_illegal : view 0 (at_ 0x02 0xC1F8) = some (0, 0x02, false, some (.illegalInstruction 0x02 0xC1F8)) := by decide
theorem test_misaligned : view 0 (at_ 0x21 0x0000) = some (0, 0x21, false, some (.misalignedFetch 0x21)) := by decide
theorem test_top_wraps : view 0 (at_ 0xFE 0x5001) = some (1, 0x00, false, none) := by decide
/-- The reset state: the word the host places is the first instruction that runs. -/
theorem test_first_instruction :
    ((next? (step (State.reset.withFetchWord 16 0x543C))).map fun t => (t.reg 4, t.pc)) = some (0x3C, 0x02) := by decide

/-! ### Other parameters (20_memory.md R30 to R32, 10_state.md R17) -/

/-- A platform with an `io`, a `rom` and an `unmapped` address, and `ALU_WRITES_Z`. -/
def platform : Params 8 8 Empty where
  unifiedMemory := true
  fetchBigEndian := true
  aluWritesZ := true
  reservedNonzero := .fault
  retModel := none
  memMap := fun a => if a = 0x80 then .io else if a = 0x81 then .rom else if a = 0x82 then .unmapped
    else if a = 0x91 then .io else .ram
  resetPc := 0

theorem test_load_unmapped :
    ((next? (stepUnder platform ((at_ 0x10 0xA012).setReg 1 0x80))).map fun t => (t.pc, t.fault)) =
      some (0x10, some (.accessFault 0x82 .read)) := by decide

theorem test_store_rom_and_io :
    ((next? (stepUnder platform ((at_ 0x10 0xB011).setReg 1 0x80))).map fun t => (t.pc, t.fault, t.ioLog)) =
      some (0x10, some (.accessFault 0x81 .write), []) ∧
    ((next? (stepUnder platform ((at_ 0x10 0xB010).setReg 1 0x80))).map fun t => (t.pc, t.byte 0x80, t.ioLog)) =
      some (0x12, 0, [.write 0x80 0]) := by decide

theorem test_load_io : ∃ t, stepUnder platform ((at_ 0x10 0xA210).setReg 1 0x80) = .next t ∧
    t.reg 2 = Config.ioDraw 0 0x80 ∧ t.ioLog = [.read 0x80 (Config.ioDraw 0 0x80)] := ⟨_, rfl, rfl, rfl⟩

theorem test_fetch_order :
    ((next? (stepUnder platform (at_ 0x80 0x0000))).map (·.fault)) = some (some (.accessFault 0x80 .fetch)) ∧
    ((next? (stepUnder platform (at_ 0x82 0x0000))).map (·.fault)) = some (some (.accessFault 0x82 .fetch)) ∧
    ((next? (stepUnder platform (at_ 0x90 0x0000))).map (·.fault)) = some (some (.accessFault 0x91 .fetch)) := by decide

/-- V2 with `ALU_WRITES_Z`: the result 0 sets Z. -/
theorem test_alu_writes_z :
    ((next? (stepUnder platform (((at_ 0x10 0x0010).setReg 0 0xFF).setReg 1 1))).map (·.z)) = some true := by decide

/-- A model that pops from a list and faults when it is empty (only for tests and witnesses: R91 supplies none). -/
def listStack : RetStack 16 (List (BitVec 16)) where
  reset := [0x40, 0x50]
  pop := fun l _ => match l with
    | [] => .error (.retStackUndefined 0x0BAD)
    | a :: rest => .ok (a, rest)

/-- Every parameter of R5 at another value than the decided one: registers of 4 bits and addresses of 16, a separate
instruction memory, low byte first, reserved bits ignored, a stack, another reset pc. -/
def stackPlatform : Params 4 16 (List (BitVec 16)) where
  unifiedMemory := false
  fetchBigEndian := false
  aluWritesZ := true
  reservedNonzero := .ignore
  retModel := some listStack
  resetPc := 0x0100
  memMap := fun a => if a = 0 then .rom else .ram

/-- The decided machine but for addresses of 16 bits (R81). -/
def widePlatform : Params 8 16 Empty where
  unifiedMemory := true
  fetchBigEndian := true
  aluWritesZ := false
  reservedNonzero := .fault
  retModel := none
  resetPc := 0
  memMap := fun _ => .ram

/-- RET at the reset pc, at 0x40 and at 0x50 in the instruction memory. -/
def sStack : State.Of 4 16 (List (BitVec 16)) :=
  (((State.launch stackPlatform (Vector.replicate 8 0) false [] []).placeWord stackPlatform 0x0100 0xF000).placeWord
    stackPlatform 0x40 0xF000).placeWord stackPlatform 0x50 0xF0FF

/-- R26, R25: low byte first, in the instruction memory, which LOAD does not see (log 17, log 18). -/
theorem test_little_endian_harvard :
    sStack.code = [(0x41, 0xF0), (0x50, 0xFF), (0x51, 0xF0), (0x101, 0xF0)] ∧ sStack.mem = [] ∧
    codeWord stackPlatform sStack 0x50 = 0xF0FF ∧ sStack.byte 0x51 = 0 := by decide

/-- V25's word 0x0311 with `RESERVED_NONZERO` = ignore is ADD R3, R1 (R57); MOVI's 0x3C in a register of 4 bits is
0xC, and 0xC + 0xC is 8 mod 16 (log 19). -/
theorem test_ignore_and_narrow_registers :
    decodeWith .ignore 0x0311 = .ok (.add 3 1) ∧ decodeWith .ignore 0xE25A = .ok (.jnz 0x5A) ∧
    (((next? (execUnder stackPlatform (.movi 1 0x3C) sStack)).bind fun t =>
      next? (execUnder stackPlatform (.add 1 1) t)).map fun t => (t.reg 1, t.pc)) = some (8, 0x0104) := by decide

/-- R81: a base of 0xFF and the offset 15 with 16-bit addresses reach 0x010E, which does not wrap; a jump back past
address 0 wraps to 0xFFFE. -/
theorem test_wide_addresses :
    effAddr (State.launch widePlatform (Vector.replicate 8 0xFF) false [] []) 1 15 = 0x010E ∧
    jumpTarget (0x0002 : BitVec 16) 0xFA = 0xFFFE := by decide

/-! ### Memory -/

theorem test_write_canonical :
    Memory.write (Memory.write (Memory.write [] 5 1) 3 2) 4 3 = [(3, 2), (4, 3), (5, 1)] ∧
    Memory.write (Memory.write [] 5 1) 5 0 = [] ∧ Memory.write [] 7 0 = [] := by decide

/-- A program's words lie high byte first from the reset pc (R109.1; P1's first two words). -/
theorem test_placeProgram :
    Memory.placeProgram [] true (0x00 : Addr) [0x5003, 0x5105] = [(0, 0x50), (1, 0x03), (2, 0x51), (3, 0x05)] := by decide

/-! ### Witnesses: every statement's hypotheses are met, clause by clause -/

/-- ADD R0, R1 at 0x10. -/
def s0 : State := at_ 0x10 0x0010

/-- RET at 0x02. -/
def sRet : State := at_ 0x02 0xF000

theorem witness_LegalWordIsItsInstructionsEncoding :
    decodeWord 0x0310 = .ok (.add 3 1) ∧ decodeWord 0xF0FF = .ok .ret := by decide

/-- The lowest and the highest opcode of each format. -/
theorem witness_SetsReservedBit :
    SetsReservedBit 0x0001 ∧ SetsReservedBit 0x4001 ∧ SetsReservedBit 0x5800 ∧ SetsReservedBit 0x9800 := by decide

theorem witness_SetsReservedBit_upper :
    SetsReservedBit 0xA080 ∧ SetsReservedBit 0xB880 ∧ SetsReservedBit 0xC100 ∧ SetsReservedBit 0xFFFF := by decide

theorem witness_ReservedBitSetRaisesIllegalInstruction :
    (at_ 0 0x4001).fault = none ∧ (at_ 0 0x4001).pc.toNat % 2 = 0 ∧ SetsReservedBit ((at_ 0 0x4001).wordAt 0) := by
  decide

theorem witness_AssembledWordFollowsTheFormula :
    AsmLine.wellFormed (.typeD .jz (-128)) = true ∧ AsmLine.wellFormed (.typeD .jz (-129)) = false := by decide

theorem witness_StepRunsTheDecodedInstruction :
    s0.fault = none ∧ s0.pc.toNat % 2 = 0 ∧ decodeWord (s0.byte s0.pc ++ s0.byte (s0.pc + 1)) = .ok (.add 0 1) := by
  decide

theorem witness_OddPcRaisesMisalignedFetch : (at_ 0xFF 0).fault = none ∧ (at_ 0xFF 0).pc.toNat % 2 = 1 := by decide

theorem witness_FaultedMachineHasNoFurtherStep :
    (s0.raise (.misalignedFetch 3)).fault = some (.misalignedFetch 3) := rfl

theorem witness_UnfaultedMachineAlwaysSteps : s0.fault = none := rfl

theorem witness_RaisingChangesOnlyTheFaultMarker :
    ∃ t, stepUnder Config.params sRet = .next t ∧ t.fault = some (.retStackUndefined 2) := ⟨_, rfl, rfl⟩

theorem witness_DecidedMachineFaultsInThreeWays :
    (∃ t, step sRet = .next t ∧ sRet.byte sRet.pc = 0xF0 ∧ t.fault = some (.retStackUndefined 2)) ∧
    (∃ t, step (at_ 1 0) = .next t ∧ t.fault = some (.misalignedFetch 1)) ∧
    (∃ t, step (at_ 0 0x0001) = .next t ∧ t.fault = some (.illegalInstruction 0 1)) ∧
    (∃ t, step s0 = .next t ∧ t.fault = none) :=
  ⟨⟨_, rfl, by decide, rfl⟩, ⟨_, rfl, rfl⟩, ⟨_, rfl, rfl⟩, ⟨_, rfl, rfl⟩⟩

/-- Each clause of the order of checks, in the order of R96. -/
theorem witness_ChecksAreMadeInTheSpecsOrder :
    ((at_ 0x81 0).fault = none ∧ (at_ 0x81 0).pc.toNat % 2 = 1) ∧
    ((at_ 0x80 0).pc.toNat % 2 = 0 ∧ platform.memMap (at_ 0x80 0).pc = .io) ∧
    ((at_ 0x90 0).pc.toNat % 2 = 0 ∧ platform.memMap (at_ 0x90 0).pc = .ram ∧
      platform.memMap ((at_ 0x90 0).pc + 1) = .io) ∧
    (SetsReservedBit ((at_ 0x10 0x0001).wordAt 0x10)) ∧ decodeWord (sRet.wordAt 0x02) = .ok .ret ∧
    (decodeWord (((at_ 0x10 0xA012).setReg 1 0x80).wordAt 0x10) = .ok (.load 0 1 2) ∧
      platform.memMap (effAddr ((at_ 0x10 0xA012).setReg 1 0x80) 1 2) = .unmapped) ∧
    (decodeWord (((at_ 0x10 0xB011).setReg 1 0x80).wordAt 0x10) = .ok (.store 0 1 1) ∧
      platform.memMap (effAddr ((at_ 0x10 0xB011).setReg 1 0x80) 1 1) = .rom) ∧
    (s0.raise (.misalignedFetch 1)).fault ≠ none := by decide

theorem witness_StepKeepsMemoryCanonical :
    (at_ 0x10 0xB010).mem.wf ∧ (∃ t, step (at_ 0x10 0xB010) = .next t) ∧
    ∃ t, stepUnder platform (at_ 0x10 0xB010) = .next t := ⟨by decide, ⟨_, rfl⟩, ⟨_, rfl⟩⟩

/-- Canonical memories; and two states that R24 makes equal though their memories are listed differently and their
`io` histories have other events. -/
theorem witness_StatesAreEqualAsTheSpecSays :
    Memory.wf [(3, 1), (255, 7)] ∧ Memory.wf [(3, 1)] ∧
    sameState { s0 with mem := (7, 0) :: s0.mem, ioLog := [.write 1 2] } { s0 with ioLog := [.write 1 3] } = true ∧
    sameState s0 (s0.setByte 0xFF 1) = false ∧ (∃ t, stepUnder platform s0 = .next t) ∧
    endedNormally { at_ 0x20 0xC0FE with mem := (7, 0) :: (at_ 0x20 0xC0FE).mem } = true :=
  ⟨by decide, by decide, by decide, by decide, ⟨_, rfl⟩, by decide⟩

theorem witness_PcTurnsOddOnlyByATakenOddJump :
    (at_ 0x20 0xC001).pc.toNat % 2 = 0 ∧ (∃ t, step (at_ 0x20 0xC001) = .next t ∧ t.pc.toNat % 2 = 1) ∧
    (∃ t, step ((at_ 0x20 0xD001).setZ true) = .next t ∧ t.pc.toNat % 2 = 1) ∧
    (∃ t, step (at_ 0x20 0xE0FF) = .next t ∧ t.pc.toNat % 2 = 1) :=
  ⟨by decide, ⟨_, rfl, by decide⟩, ⟨_, rfl, by decide⟩, ⟨_, rfl, by decide⟩⟩

/-- One state for each clause: a flag that is set and one that is clear, at an even pc without a fault. -/
theorem witness_OddJumpCompletesAndTheNextStepFaults :
    s0.pc.toNat % 2 = 0 ∧ s0.fault = none ∧ s0.z = false ∧ (s0.setZ true).z = true ∧ (s0.setZ true).pc = s0.pc ∧
    (0xFF : Byte).toNat % 2 = 1 ∧ (0x01 : Byte).toNat % 2 = 1 := by decide

theorem witness_ZeroFlagWritersAndReaders :
    (∃ t, execUnder platform (.cmp 0 1) s0 = .next t) ∧ (∃ t, execUnder platform (.add 0 1) s0 = .next t) ∧
    (∃ t, execUnder { platform with aluWritesZ := false } (.add 0 1) s0 = .next t) ∧
    (∃ t, execUnder platform (.add 0 1) (s0.setZ true) = .next t) ∧
    (∃ t, execUnder { platform with aluWritesZ := false } (.cmp 0 1) (s0.setZ true) = .next t) ∧
    (∃ t, execUnder platform (.jz 4) s0 = .next t) ∧ (∃ t, execUnder platform (.jnz 4) s0 = .next t) ∧
    ∀ off, Instr.add 0 1 ≠ .jz off ∧ Instr.add 0 1 ≠ .jnz off :=
  ⟨⟨_, rfl⟩, ⟨_, rfl⟩, ⟨_, rfl⟩, ⟨_, rfl⟩, ⟨_, rfl⟩, ⟨_, rfl⟩, ⟨_, rfl⟩, fun _ => ⟨nofun, nofun⟩⟩

/-- Two states that differ in R7 only, which ADD R0, R1 does not read. -/
theorem witness_RegisterUseFollowsTheTable :
    (∃ t, execUnder Config.params (.add 0 1) s0 = .next t ∧ t.fault = none) ∧
    (∃ t, execUnder Config.params (.add 0 1) (s0.setReg 7 9) = .next t) ∧
    (∀ r ∈ readRegs (.add 0 1), (s0.setReg 7 9).reg r = s0.reg r) ∧ (s0.setReg 7 9).mem = s0.mem ∧
    destReg (.add 0 1) ≠ some 7 ∧ destReg (.add 0 1) = some 0 :=
  ⟨⟨_, rfl, rfl⟩, ⟨_, rfl⟩, by decide, rfl, by decide, by decide⟩

theorem witness_OnlyStoreWritesMemory :
    (∃ t, execUnder platform (.load 0 1 2) s0 = .next t) ∧ (∃ t, execUnder platform (.store 0 1 2) s0 = .next t) ∧
    (∀ d b off, Instr.load 0 1 2 ≠ .store d b off) ∧ (0x77 : Addr) ≠ effAddr s0 1 2 :=
  ⟨⟨_, rfl⟩, ⟨_, rfl⟩, fun _ _ _ => nofun, by decide⟩

theorem witness_IoHistoryGrowsByTheStepsAccess :
    (∃ t, stepUnder platform s0 = .next t ∧ t.ioLog = s0.ioLog) ∧
    (∃ t, stepUnder platform ((at_ 0x10 0xA210).setReg 1 0x80) = .next t ∧ t.ioLog ≠ []) ∧
    (∃ t, stepUnder platform ((at_ 0x10 0xB210).setReg 1 0x80) = .next t ∧ t.ioLog ≠ []) :=
  ⟨⟨_, rfl, rfl⟩, ⟨_, rfl, nofun⟩, ⟨_, rfl, nofun⟩⟩

theorem witness_DecidedMachineNeverTouchesIo :
    (∃ t, step s0 = .next t) ∧ SameState s0 { s0 with ioLog := [.write 1 2], code := [(1, 1)] } :=
  ⟨⟨_, rfl⟩, sameState_iff.1 (by decide)⟩

theorem witness_FirstStepRunsTheInstructionAtResetPc :
    Launch Config.params (at_ 0 0x4120) ∧
    decodeWord ((at_ 0 0x4120).byte 0x00 ++ (at_ 0 0x4120).byte 0x01) = .ok (.cmp 1 2) :=
  ⟨⟨rfl, rfl, rfl, rfl⟩, by decide⟩

theorem witness_PlacedInstructionIsTheNextStep :
    s0.fault = none ∧ s0.pc.toNat % 2 = 0 ∧ s0.mem.wf ∧ (0x12 : Addr) ≠ s0.pc ∧ (0x12 : Addr) ≠ s0.pc + 1 := by decide

/-- Every region occurs, for the statements by region (accesses, fetch, LOAD, STORE); the fetch's also at pc + 1. -/
theorem witness_regions :
    platform.memMap 0x7E = .ram ∧ platform.memMap 0x80 = .io ∧ platform.memMap 0x81 = .rom ∧
    platform.memMap 0x82 = .unmapped ∧ (at_ 0x80 0).pc.toNat % 2 = 0 ∧ (at_ 0x82 0).pc.toNat % 2 = 0 ∧
    ((at_ 0x10 0).pc + 1).toNat = 0x11 ∧ (0x7E : Addr) ≠ 0x80 ∧
    effAddr (s0.setReg 1 0x80) 1 0 = 0x80 ∧ effAddr (s0.setReg 1 0x80) 1 1 = 0x81 ∧
    effAddr (s0.setReg 1 0x80) 1 2 = 0x82 ∧ effAddr (s0.setReg 1 0x80) 1 3 = 0x83 := by decide

theorem witness_EffectiveAddressIsBasePlusOffsetWrapped :
    (∃ t, execUnder platform (.store 2 1 3) s0 = .next t) ∧ (∃ t, execUnder platform (.load 2 1 3) s0 = .next t) ∧
    (2 : RegId) ≠ 1 := ⟨⟨_, rfl⟩, ⟨_, rfl⟩, by decide⟩

/-- For the jumps and their target: a clear and a set flag, and a non-jump that is not RET. -/
theorem witness_JumpTargetIsRelativeToTheNextInstruction :
    s0.z = false ∧ (s0.setZ true).z = true ∧ (∃ t, exec (.add 0 1) s0 = .next t) ∧ Instr.add 0 1 ≠ .ret ∧
    ∀ off, Instr.add 0 1 ≠ .jmp off ∧ Instr.add 0 1 ≠ .jz off ∧ Instr.add 0 1 ≠ .jnz off :=
  ⟨rfl, rfl, ⟨_, rfl⟩, nofun, fun _ => ⟨nofun, nofun, nofun⟩⟩

/-- A jump to an odd target, and a state that a CMP of equal and one that a CMP of unequal registers leaves. -/
theorem witness_JumpStatements :
    (∃ t, exec (.jmp 0xFF) s0 = .next t ∧ t.pc.toNat % 2 = 1 ∧ s0.fault = none) ∧
    (∃ t, exec (.cmp 0 1) s0 = .next t ∧ s0.reg 0 = s0.reg 1) ∧
    (∃ t, exec (.cmp 0 1) (s0.setReg 1 0xFF) = .next t ∧ (s0.setReg 1 0xFF).reg 0 ≠ (s0.setReg 1 0xFF).reg 1) :=
  ⟨⟨_, rfl, by decide, rfl⟩, ⟨_, rfl, by decide⟩, ⟨_, rfl, by decide⟩⟩

theorem witness_RetRaisesRetStackUndefined :
    (at_ 0x02 0xF100).fault = none ∧ (at_ 0x02 0xF100).pc.toNat % 2 = 0 ∧
    ((at_ 0x02 0xF100).wordAt 0x02).toNat / 4096 = 15 ∧ (at_ 0x02 0xF100).wordAt 0x02 &&& 0x0F00 ≠ 0 := by decide

/-- With a model whose list is longer than one entry two RETs in a row pop both, and a third raises pop's fault. -/
theorem witness_RetUnderASuppliedModelPops :
    (stackPlatform.retModel = some listStack) ∧ Config.params.retModel = none ∧
    (State.launch stackPlatform (Vector.replicate 8 0) false [] []).stack = some [0x40, 0x50] ∧
    (∃ t, stepUnder stackPlatform sStack = .next t ∧ t.pc = 0x40 ∧ t.stack = some [0x50] ∧
      ∃ u, stepUnder stackPlatform t = .next u ∧ u.pc = 0x50 ∧ u.stack = some [] ∧
        ∃ w, stepUnder stackPlatform u = .next w ∧ w.fault = some (.retStackUndefined 0x0BAD) ∧ w.stack = some []) ∧
    Instr.add 0 1 ≠ .ret :=
  ⟨rfl, rfl, rfl, ⟨_, rfl, rfl, rfl, _, rfl, rfl, rfl, _, rfl, rfl, rfl⟩, nofun⟩

/-- STORE R0, [R1 + 0] at 0x10, over the first byte, then the second byte, of the instruction after it. -/
theorem witness_NextFetchSeesTheStoredByte :
    (at_ 0x10 0xB010).fault = none ∧ (at_ 0x10 0xB010).pc.toNat % 2 = 0 ∧
    (∃ t, exec (.store 0 1 0) ((at_ 0x10 0xB010).setReg 1 0x12) = .next t) ∧
    effAddr ((at_ 0x10 0xB010).setReg 1 0x12) 1 0 = (at_ 0x10 0xB010).pc + 2 ∧
    effAddr ((at_ 0x10 0xB010).setReg 1 0x13) 1 0 = (at_ 0x10 0xB010).pc + 3 ∧
    decodeWord (((at_ 0x10 0xB010).setReg 1 0x12).reg 0 ++ ((at_ 0x10 0xB010).setReg 1 0x12).byte 0x13) = .ok (.add 0 0) ∧
    decodeWord (((at_ 0x10 0xB010).setReg 1 0x13).byte 0x12 ++ ((at_ 0x10 0xB010).setReg 1 0x13).reg 0) = .ok (.add 0 0) :=
  ⟨by decide, by decide, ⟨_, rfl⟩, by decide, by decide, by decide, by decide⟩

/-- The clauses that quantify over all parameters, met where none has its decided value: the step, the canonical form,
placing, launching, the fault of a pop, the fetch from the instruction memory, the widths. -/
theorem witness_other_parameters :
    sStack.fault = none ∧ sStack.pc.toNat % 2 = 0 ∧ fetch stackPlatform sStack = .ok 0xF000 ∧
    decodeWith stackPlatform.reservedNonzero 0xF000 = .ok .ret ∧ sStack.mem.wfAt (2 ^ 16) ∧ sStack.code.wfAt (2 ^ 16) ∧
    stackPlatform.memMap sStack.pc = .ram ∧ stackPlatform.memMap (sStack.pc + 1) = .ram ∧
    Launch stackPlatform sStack ∧ listStack.pop [] sStack.byte = .error (.retStackUndefined 0x0BAD) ∧
    stackPlatform.unifiedMemory = false ∧ (∃ t, execUnder stackPlatform (.store 0 1 2) sStack = .next t) ∧ 8 < 16 :=
  ⟨rfl, by decide, by decide, by decide, by decide, by decide, by decide, by decide, ⟨rfl, rfl, rfl, rfl⟩, rfl, rfl,
    ⟨_, rfl⟩, by decide⟩

/-- The end of a run under other parameters, and an `END` of the reader's own (R5): the run that reaches 0x50. -/
theorem witness_EndUnderOtherParameters :
    endedNormallyUnder stackPlatform (sStack.placeWord stackPlatform 0x0100 0xC0FE) = true ∧
    (match runFuelUnder stackPlatform (fun s => s.pc == 0x50) 2 sStack with
      | .normal s => s.stack == some []
      | _ => false) = true := by decide

theorem witness_distinct_registers : (3 : RegId) ≠ 2 ∧ (0 : RegId) ≠ 1 ∧ (0x41 : Addr) ≠ 0x40 := by decide

theorem witness_WordsThatOnlyAdvanceThePc : Config.params.aluWritesZ = false := rfl

/-- The three self-jumps of R112, and an abnormal end. -/
theorem witness_RunEndsNormallyExactlyAtATakenSelfJump :
    endedNormally (at_ 0x20 0xC0FE) = true ∧ endedNormally ((at_ 0x20 0xD0FE).setZ true) = true ∧
    endedNormally (at_ 0x20 0xE0FE) = true ∧ endedNormally (at_ 0x20 0xD0FE) = false ∧
    endedAbnormally (s0.raise (.misalignedFetch 1)) = true := by decide

theorem witness_ExecutorUnderFuelIsSound :
    runFuel 0 (at_ 0x20 0xC0FE) = .normal (at_ 0x20 0xC0FE) ∧ (∃ t, runFuel 1 sRet = .abnormal t) ∧
    runFuel 0 s0 = .outOfFuel s0 := ⟨by decide, ⟨_, rfl⟩, by decide⟩

end Sys2Proof.Machine.Tests
end

section
/-! SUPPORT and PROOF. Which registers an instruction reads and writes, under any parameters (10_state.md R12). -/

namespace Sys2Proof.Machine

variable {W A : Nat} {σ : Type}

/-! ### Registers an instruction leaves alone -/

theorem memRead_reg {p : Params W A σ} {a : BitVec A} {v : Byte} {s u : State.Of W A σ}
    (h : memRead p a s = .ok (v, u)) (r : RegId) : u.reg r = s.reg r := by
  obtain ⟨-, -, rfl⟩ | ⟨-, -, rfl⟩ := memRead_ok h
  · rfl
  · exact State.reg_logIo ..

theorem memWrite_reg {p : Params W A σ} {a : BitVec A} {v : Byte} {s u : State.Of W A σ}
    (h : memWrite p a v s = .ok u) (r : RegId) : u.reg r = s.reg r := by
  obtain ⟨-, rfl⟩ | ⟨-, rfl⟩ := memWrite_ok h
  · exact State.reg_setByte ..
  · exact State.reg_logIo ..

theorem loadUnder_reg_of_ne {p : Params W A σ} {d b r : RegId} {off : Off4} {s t : State.Of W A σ}
    (h : loadUnder p d b off s = .next t) (hr : r ≠ d) : t.reg r = s.reg r := by
  obtain ⟨v, u, hread, rfl⟩ | ⟨f, -, rfl⟩ := loadUnder_cases h
  · simp [hr, memRead_reg hread]
  · exact State.reg_raise ..

theorem storeUnder_reg {p : Params W A σ} {d b : RegId} {off : Off4} {s t : State.Of W A σ}
    (h : storeUnder p d b off s = .next t) (r : RegId) : t.reg r = s.reg r := by
  obtain ⟨u, hwrite, rfl⟩ | ⟨f, -, rfl⟩ := storeUnder_cases h
  · simp [memWrite_reg hwrite]
  · exact State.reg_raise ..

theorem retUnder_reg {p : Params W A σ} {s t : State.Of W A σ} (h : retUnder p s = .next t) (r : RegId) :
    t.reg r = s.reg r := by
  obtain ⟨-, rfl⟩ | ⟨m, -, ⟨a, x, -, rfl⟩ | ⟨f, -, rfl⟩⟩ := retUnder_cases h <;> simp

/-- The rule's column "writes". -/
theorem execUnder_reg_of_not_dest {p : Params W A σ} {i : Instr} {s t : State.Of W A σ}
    (h : execUnder p i s = .next t) {r : RegId} (hr : destReg i ≠ some r) : t.reg r = s.reg r := by
  cases i with
  | add d _ | sub d _ | and d _ | or d _ | addi d _ | subi d _ | andi d _ | ori d _ | movi d _ =>
    have hne : r ≠ d := by simpa [destReg, eq_comm] using hr
    cases h
    simp [hne]
  | load d b off => exact loadUnder_reg_of_ne h (by simpa [destReg, eq_comm] using hr)
  | store d b off => exact storeUnder_reg h r
  | cmp _ _ | jmp _ | jz _ | jnz _ =>
    cases h
    simp
  | ret => exact retUnder_reg h r

/-- Whether a read raises is fixed by the memory map alone (20_memory.md R30). -/
theorem memRead_error_of_error {p : Params W A σ} {a : BitVec A} {s : State.Of W A σ} {f : Fault.Of A}
    (h : memRead p a s = .error f) (s' : State.Of W A σ) : memRead p a s' = .error f := by
  obtain ⟨hmap, rfl⟩ := memRead_error h
  simp [memRead, hmap]

/-- Whether a write raises is fixed by the memory map alone (20_memory.md R31). -/
theorem memWrite_error_of_error {p : Params W A σ} {a : BitVec A} {v : Byte} {s : State.Of W A σ} {f : Fault.Of A}
    (h : memWrite p a v s = .error f) (s' : State.Of W A σ) : memWrite p a v s' = .error f := by
  obtain ⟨hmap | hmap, rfl⟩ := memWrite_error h <;> simp [memWrite, hmap]

/-! ### States that differ in registers only

As in the rule's table, the instruction memory `code` is not compared: no instruction reads it. -/

/-- Two states agree on everything that is no register. -/
structure AgreeOutsideRegs (s s' : State.Of W A σ) : Prop where
  pc : s'.pc = s.pc
  z : s'.z = s.z
  mem : s'.mem = s.mem
  rest : RestSame s s'

namespace AgreeOutsideRegs

variable {s s' : State.Of W A σ}

theorem fault (h : AgreeOutsideRegs s s') : s'.fault = s.fault := h.rest.1
theorem ioLog (h : AgreeOutsideRegs s s') : s'.ioLog = s.ioLog := h.rest.2.1
theorem stack (h : AgreeOutsideRegs s s') : s'.stack = s.stack := h.rest.2.2

theorem byte (h : AgreeOutsideRegs s s') : s'.byte = s.byte := by
  funext a
  simp only [State.Of.byte, h.mem]

theorem setReg (h : AgreeOutsideRegs s s') (d : RegId) (v v' : BitVec W) :
    AgreeOutsideRegs (s.setReg d v) (s'.setReg d v') := ⟨h.pc, h.z, h.mem, h.rest⟩

theorem setZ (h : AgreeOutsideRegs s s') (b : Bool) : AgreeOutsideRegs (s.setZ b) (s'.setZ b) :=
  ⟨h.pc, rfl, h.mem, h.rest⟩

theorem setPc (h : AgreeOutsideRegs s s') (a : BitVec A) : AgreeOutsideRegs (s.setPc a) (s'.setPc a) :=
  ⟨rfl, h.z, h.mem, h.rest⟩

theorem setByte (h : AgreeOutsideRegs s s') (a : BitVec A) (v : Byte) :
    AgreeOutsideRegs (s.setByte a v) (s'.setByte a v) :=
  ⟨h.pc, h.z, by simp [h.mem], h.rest⟩

theorem logIo (h : AgreeOutsideRegs s s') (e : IoEvent A) : AgreeOutsideRegs (s.logIo e) (s'.logIo e) :=
  ⟨h.pc, h.z, h.mem, h.fault, by simp [h.ioLog], h.stack⟩

theorem raise (h : AgreeOutsideRegs s s') (f : Fault.Of A) : AgreeOutsideRegs (s.raise f) (s'.raise f) :=
  ⟨h.pc, h.z, h.mem, rfl, h.ioLog, h.stack⟩

theorem setStack (h : AgreeOutsideRegs s s') (x : σ) : AgreeOutsideRegs (s.setStack x) (s'.setStack x) :=
  ⟨h.pc, h.z, h.mem, h.fault, h.ioLog, rfl⟩

theorem advance (h : AgreeOutsideRegs s s') : AgreeOutsideRegs s.advance s'.advance := by
  simpa only [State.Of.advance, h.pc] using h.setPc (s.pc + 2)

theorem setAluZ (h : AgreeOutsideRegs s s') (p : Params W A σ) (v : BitVec W) :
    AgreeOutsideRegs (s.setAluZ p v) (s'.setAluZ p v) := by
  unfold State.Of.setAluZ
  split
  · exact h.setZ _
  · exact h

theorem writeAlu (h : AgreeOutsideRegs s s') (p : Params W A σ) (d : RegId) (v : BitVec W) :
    AgreeOutsideRegs (s.writeAlu p d v) (s'.writeAlu p d v) :=
  ((h.setReg d v v).setAluZ p v).advance

theorem branch (h : AgreeOutsideRegs s s') (taken : Bool) (off : Byte) :
    AgreeOutsideRegs (s.branch taken off) (s'.branch taken off) := by
  cases taken
  · exact h.advance
  · simpa only [State.Of.branch, if_true, h.pc] using h.setPc (jumpTarget s.pc off)

/-- A read answers the same byte in both, an `io` read because both histories are as long (20_memory.md R34). -/
theorem memRead_ok {p : Params W A σ} {a : BitVec A} {v : Byte} {u : State.Of W A σ} (h : AgreeOutsideRegs s s')
    (hread : memRead p a s = .ok (v, u)) : ∃ u', memRead p a s' = .ok (v, u') ∧ AgreeOutsideRegs u u' := by
  obtain ⟨hmap, rfl, rfl⟩ | ⟨hmap, rfl, rfl⟩ := Machine.memRead_ok hread
  · exact ⟨s', by rcases hmap with hmap | hmap <;> simp [memRead, hmap, h.byte], h⟩
  · exact ⟨_, by simp [memRead, hmap, h.ioLog], h.logIo _⟩

theorem memWrite_ok {p : Params W A σ} {a : BitVec A} {v : Byte} {u : State.Of W A σ} (h : AgreeOutsideRegs s s')
    (hwrite : memWrite p a v s = .ok u) : ∃ u', memWrite p a v s' = .ok u' ∧ AgreeOutsideRegs u u' := by
  obtain ⟨hmap, rfl⟩ | ⟨hmap, rfl⟩ := Machine.memWrite_ok hwrite
  · exact ⟨_, by simp [memWrite, hmap], h.setByte a v⟩
  · exact ⟨_, by simp [memWrite, hmap], h.logIo _⟩

end AgreeOutsideRegs

/-! ### Noninterference -/

/-- Two results of an instruction whose destination is `dst` agree on everything that is no register and, without
a fault, on the destination. -/
def ResultsAgree (dst : Option RegId) (t t' : State.Of W A σ) : Prop :=
  AgreeOutsideRegs t t' ∧ (t.fault = none → ∀ r, dst = some r → t'.reg r = t.reg r)

theorem AgreeOutsideRegs.resultsAgree_none {t t' : State.Of W A σ} (h : AgreeOutsideRegs t t') :
    ResultsAgree none t t' := ⟨h, nofun⟩

theorem AgreeOutsideRegs.resultsAgree_some {t t' : State.Of W A σ} (h : AgreeOutsideRegs t t') {d : RegId}
    (hd : t'.reg d = t.reg d) : ResultsAgree (some d) t t' :=
  ⟨h, fun _ _ hr => Option.some.inj hr ▸ hd⟩

/-- After a fault the destination is left alone, so nothing is asked of it. -/
theorem AgreeOutsideRegs.resultsAgree_raise {s s' : State.Of W A σ} (h : AgreeOutsideRegs s s')
    (dst : Option RegId) (f : Fault.Of A) : ResultsAgree dst (s.raise f) (s'.raise f) := ⟨h.raise f, nofun⟩

section
variable {p : Params W A σ} {s s' t : State.Of W A σ}

theorem AgreeOutsideRegs.resultsAgree_writeAlu (h : AgreeOutsideRegs s s') (d : RegId) {v v' : BitVec W}
    (hv : v' = v) : ResultsAgree (some d) (s.writeAlu p d v) (s'.writeAlu p d v') := by
  subst hv
  exact (h.writeAlu p d v').resultsAgree_some (by simp)

theorem effAddr_congr {b : RegId} (hb : s'.reg b = s.reg b) (off : Off4) : effAddr s' b off = effAddr s b off := by
  simp only [effAddr, hb]

theorem loadUnder_noninterference {d b : RegId} {off : Off4} (h : AgreeOutsideRegs s s')
    (hb : s'.reg b = s.reg b) (ht : loadUnder p d b off s = .next t) :
    ∃ t', loadUnder p d b off s' = .next t' ∧ ResultsAgree (some d) t t' := by
  simp only [loadUnder, effAddr_congr hb]
  obtain ⟨v, u, hread, rfl⟩ | ⟨f, hread, rfl⟩ := loadUnder_cases ht
  · obtain ⟨u', hread', hu⟩ := h.memRead_ok hread
    exact ⟨_, by rw [hread'], (hu.setReg d _ _).advance.resultsAgree_some (by simp)⟩
  · exact ⟨_, by rw [memRead_error_of_error hread s'], h.resultsAgree_raise _ f⟩

theorem storeUnder_noninterference {d b : RegId} {off : Off4} (h : AgreeOutsideRegs s s')
    (hb : s'.reg b = s.reg b) (hd : s'.reg d = s.reg d) (ht : storeUnder p d b off s = .next t) :
    ∃ t', storeUnder p d b off s' = .next t' ∧ ResultsAgree none t t' := by
  simp only [storeUnder, effAddr_congr hb, hd]
  obtain ⟨u, hwrite, rfl⟩ | ⟨f, hwrite, rfl⟩ := storeUnder_cases ht
  · obtain ⟨u', hwrite', hu⟩ := h.memWrite_ok hwrite
    exact ⟨_, by rw [hwrite'], hu.advance.resultsAgree_none⟩
  · exact ⟨_, by rw [memWrite_error_of_error hwrite s'], h.resultsAgree_raise _ f⟩

theorem retUnder_noninterference (h : AgreeOutsideRegs s s') (ht : retUnder p s = .next t) :
    ∃ t', retUnder p s' = .next t' ∧ ResultsAgree none t t' := by
  simp only [retUnder, h.pc, h.stack, h.byte]
  obtain ⟨hm, rfl⟩ | ⟨m, hm, ⟨a, x, hpop, rfl⟩ | ⟨f, hpop, rfl⟩⟩ := retUnder_cases ht
  · exact ⟨_, by rw [hm], h.resultsAgree_raise _ _⟩
  · exact ⟨_, by simp only [hm, hpop], ((h.setStack x).setPc a).resultsAgree_none⟩
  · exact ⟨_, by simp only [hm, hpop], h.resultsAgree_raise _ f⟩

/-- The rule's column "reads": an instruction's result depends on no other register. -/
theorem execUnder_noninterference {i : Instr} (h : AgreeOutsideRegs s s')
    (hreads : ∀ r ∈ readRegs i, s'.reg r = s.reg r) (ht : execUnder p i s = .next t) :
    ∃ t', execUnder p i s' = .next t' ∧ ResultsAgree (destReg i) t t' := by
  cases i with
  | add d r | sub d r | and d r | or d r =>
    obtain ⟨hd, hr⟩ : s'.reg d = s.reg d ∧ s'.reg r = s.reg r := by simpa [readRegs] using hreads
    cases ht
    exact ⟨_, rfl, h.resultsAgree_writeAlu d (by rw [hd, hr])⟩
  | addi d _ | subi d _ | andi d _ | ori d _ =>
    have hd : s'.reg d = s.reg d := by simpa [readRegs] using hreads
    cases ht
    exact ⟨_, rfl, h.resultsAgree_writeAlu d (by rw [hd])⟩
  | movi d imm =>
    cases ht
    exact ⟨_, rfl, (h.setReg d _ _).advance.resultsAgree_some (by simp)⟩
  | cmp d r =>
    obtain ⟨hd, hr⟩ : s'.reg d = s.reg d ∧ s'.reg r = s.reg r := by simpa [readRegs] using hreads
    cases ht
    exact ⟨_, by rw [execUnder, execCmp, hd, hr], (h.setZ _).advance.resultsAgree_none⟩
  | load d b off =>
    have hb : s'.reg b = s.reg b := by simpa [readRegs] using hreads
    exact loadUnder_noninterference h hb ht
  | store d b off =>
    obtain ⟨hb, hd⟩ : s'.reg b = s.reg b ∧ s'.reg d = s.reg d := by simpa [readRegs] using hreads
    exact storeUnder_noninterference h hb hd ht
  | jmp off =>
    cases ht
    exact ⟨_, by rw [execUnder, execJmp, h.pc], (h.setPc _).resultsAgree_none⟩
  | jz off =>
    cases ht
    exact ⟨_, by rw [execUnder, execJz, h.z], (h.branch _ off).resultsAgree_none⟩
  | jnz off =>
    cases ht
    exact ⟨_, by rw [execUnder, execJnz, h.z], (h.branch _ off).resultsAgree_none⟩
  | ret => exact retUnder_noninterference h ht

end

/-- Settles O22: a register that is not the destination is unchanged in every instruction's result, and states
that agree but for the registers not read give results that agree but for the registers not written. -/
theorem registerUseFollowsTheTable : Obligations.RegisterUseFollowsTheTable := by
  unfold Obligations.RegisterUseFollowsTheTable
  intro W A σ
  refine ⟨fun p i s t ht => ⟨fun r hr => execUnder_reg_of_not_dest ht hr, ?_⟩, fun s r v => by simp⟩
  intro s' t' hpc hz hmem hrest hreads ht'
  obtain ⟨u, hu, ⟨hpc', hz', hmem', hrest'⟩, hdest⟩ := execUnder_noninterference ⟨hpc, hz, hmem, hrest⟩ hreads ht
  obtain rfl : u = t' := Host.Outcome.next.inj (hu.symm.trans ht')
  exact ⟨hpc', hz', hmem', hrest', hdest⟩
end Sys2Proof.Machine
end

section
/-! SUPPORT and PROOF. Memory accesses: what a data read and a data write answer in each region (20_memory.md R30,
R31), and the check of the pc that comes before every fetch (R29). -/

namespace Sys2Proof.Machine

variable {W A : Nat} {σ : Type}

/-! ### The check before the fetch -/

/-- The check of the pc depends neither on memory nor on the parameters nor on what the instructions mean. -/
theorem cycle_of_odd_pc (p : Params W A σ) (run : Instr → State.Of W A σ → ResultOf W A σ) {s : State.Of W A σ}
    (hfault : s.fault = none) (hodd : s.pc.toNat % 2 = 1) :
    cycle p run s = .next (s.raise (.misalignedFetch s.pc)) := by
  have hpc : s.oddPc = true := (State.oddPc_eq_true s).2 hodd
  simp only [cycle, hfault, hpc, if_true]

/-- Settles O8. -/
theorem oddPcRaisesMisalignedFetch : Obligations.OddPcRaisesMisalignedFetch := by
  unfold Obligations.OddPcRaisesMisalignedFetch
  exact fun s hfault hodd => cycle_of_odd_pc Config.params exec hfault hodd

/-! ### The answer of an access, by region -/

section
variable {p : Params W A σ} {a : BitVec A}

theorem memRead_of_ram_or_rom (h : p.memMap a = .ram ∨ p.memMap a = .rom) (s : State.Of W A σ) :
    memRead p a s = .ok (s.byte a, s) := by
  rcases h with h | h <;> simp only [memRead, h]

/-- The byte is the platform's free value, and the event records the byte that was answered (20_memory.md R34). -/
theorem memRead_of_io (h : p.memMap a = .io) (s : State.Of W A σ) :
    memRead p a s = .ok (Config.ioDraw s.ioLog.length a.toNat,
      s.logIo (.read a (Config.ioDraw s.ioLog.length a.toNat))) := by
  simp only [memRead, h]

theorem memRead_of_unmapped (h : p.memMap a = .unmapped) (s : State.Of W A σ) :
    memRead p a s = .error (.accessFault a .read) := by
  simp only [memRead, h]

theorem memWrite_of_ram (h : p.memMap a = .ram) (v : Byte) (s : State.Of W A σ) :
    memWrite p a v s = .ok (s.setByte a v) := by
  simp only [memWrite, h]

theorem memWrite_of_io (h : p.memMap a = .io) (v : Byte) (s : State.Of W A σ) :
    memWrite p a v s = .ok (s.logIo (.write a v)) := by
  simp only [memWrite, h]

theorem memWrite_of_rom_or_unmapped (h : p.memMap a = .rom ∨ p.memMap a = .unmapped) (v : Byte)
    (s : State.Of W A σ) : memWrite p a v s = .error (.accessFault a .write) := by
  rcases h with h | h <;> simp only [memWrite, h]

/-- A write to `ram` replaces the memory by one that holds the byte at the address and is the old one elsewhere. -/
theorem memWrite_ram_replaces_byte (h : p.memMap a = .ram) (v : Byte) (s : State.Of W A σ) :
    ∃ m, memWrite p a v s = .ok { s with mem := m } ∧ m.read a.toNat = v ∧
      ∀ c : BitVec A, c ≠ a → m.read c.toNat = s.byte c := by
  refine ⟨(s.setByte a v).mem, memWrite_of_ram h v s, ?_, fun c hc => ?_⟩
  · exact (State.byte_setByte s a v a).trans (if_pos rfl)
  · exact (State.byte_setByte s a v c).trans (if_neg hc)

end

/-- Settles O30: region by region; the decided map has every address in `ram`. -/
theorem dataReadByRegion : Obligations.DataReadByRegion := by
  unfold Obligations.DataReadByRegion
  exact ⟨fun W A σ p a s => ⟨fun h => memRead_of_ram_or_rom h s, fun h => ⟨_, memRead_of_io h s⟩,
    fun h => memRead_of_unmapped h s⟩, memRead_params⟩

/-- Settles O31: region by region; the decided map has every address in `ram`. -/
theorem dataWriteByRegion : Obligations.DataWriteByRegion := by
  unfold Obligations.DataWriteByRegion
  exact ⟨fun W A σ p a v s => ⟨fun h => memWrite_ram_replaces_byte h v s, fun h => memWrite_of_io h v s,
    fun h => memWrite_of_rom_or_unmapped h v s⟩, fun a v s => memWrite_ram_replaces_byte (Config.memMap_params a) v s⟩

end Sys2Proof.Machine
end

section
/-! SUPPORT and PROOF. A word with a reserved bit set: how the decoder and the step reject it (30_encoding.md R56,
R57). -/

namespace Sys2Proof.Machine

variable {W A : Nat} {σ : Type}

/-! ### The reserved bits of a word -/

/-- The format by the number the word begins with (R54). -/
theorem formatOf_opField (iw : Word) :
    formatOf (opField iw) =
      if iw.toNat / 4096 ≤ 4 then .a else if iw.toNat / 4096 ≤ 9 then .b else if iw.toNat / 4096 ≤ 11 then .c
      else .d := by
  simp [formatOf, BitVec.le_def, toNat_opField]

/-- The spec's table of reserved bits says the same as the mask of the decoder. -/
theorem setsReservedBit_iff (iw : Word) :
    SetsReservedBit iw ↔ iw &&& reservedMask (formatOf (opField iw)) ≠ 0 := by
  rw [formatOf_opField]
  unfold SetsReservedBit
  -- In each format's range of opcodes only that format's line of the table can hold.
  split_ifs <;> grind [reservedMask]

theorem decodeWord_of_setsReservedBit {iw : Word} (h : SetsReservedBit iw) :
    decodeWord iw = .error (.reservedNonzero iw) :=
  if_neg ((setsReservedBit_iff iw).1 h)

/-! ### The step on a word that is no instruction -/

/-- The raise depends neither on the decoder's reason nor on what the instructions mean. -/
theorem cycle_of_decode_error {p : Params W A σ} (run : Instr → State.Of W A σ → ResultOf W A σ)
    {s : State.Of W A σ} {iw : Word} {e : DecodeError} (hfault : s.fault = none) (heven : s.pc.toNat % 2 = 0)
    (hfetch : fetch p s = .ok iw) (hdecode : decodeWith p.reservedNonzero iw = .error e) :
    cycle p run s = .next (s.raise (.illegalInstruction s.pc iw)) := by
  have hpc : s.oddPc = false := (State.oddPc_eq_false s).2 heven
  simp [cycle, hfault, hpc, hfetch, hdecode]

/-- Settles O4: the decided machine fetches the word at the pc and decodes it as `decodeWord` does. -/
theorem reservedBitSetRaisesIllegalInstruction : Obligations.ReservedBitSetRaisesIllegalInstruction := by
  unfold Obligations.ReservedBitSetRaisesIllegalInstruction
  exact ⟨fun _ hbit => decodeWord_of_setsReservedBit hbit, fun s hfault heven hbit =>
    cycle_of_decode_error exec hfault heven (fetch_params s) (decodeWord_of_setsReservedBit hbit)⟩

end Sys2Proof.Machine
end

section
/-! SUPPORT and PROOF. The instructions between two registers, ADD, SUB, AND, OR and CMP (40_alu_register.md R65 to
R69): their words, their results and what they leave unchanged. -/

namespace Sys2Proof

/-! ### Decoding an encoded instruction (30_encoding.md R54, R63) -/

theorem opField_encode (i : Instr) : opField (encode i) = opcodeOf i := by
  cases i with
  | add d s | sub d s | and d s | or d s | cmp d s => exact opField_packA _ d s
  | movi d imm | addi d imm | subi d imm | andi d imm | ori d imm => exact opField_packB _ d imm
  | load d b off | store d b off => exact opField_packC _ d b off
  | jmp off | jz off | jnz off => exact opField_packD _ off
  | ret => exact opField_packD _ 0

theorem encode_reserved (i : Instr) : encode i &&& reservedMask (formatOf (opcodeOf i)) = 0 := by
  cases i with
  | add d s | sub d s | and d s | or d s | cmp d s => exact Laws.ReservedZero.packA_reserved _ d s
  | movi d imm | addi d imm | subi d imm | andi d imm | ori d imm => exact Laws.ReservedZero.packB_reserved _ d imm
  | load d b off | store d b off => exact Laws.ReservedZero.packC_reserved _ d b off
  | jmp off | jz off | jnz off => exact Laws.ReservedZero.packD_reserved _ off
  | ret => exact Laws.ReservedZero.packD_reserved _ 0

theorem instrOf_encode (i : Instr) : instrOf (encode i) = i := by
  rw [instrOf, opField_encode]
  cases i <;> simp [opcodeOf, encode]

theorem decodeWord_encode (i : Instr) : decodeWord (encode i) = .ok i := by
  rw [decodeWord, opField_encode, if_pos (encode_reserved i), instrOf_encode]

/-! ### The wrapped difference (decision D5) -/

theorem Byte.toNat_sub_emod (a b : Byte) : ((a - b).toNat : Int) = ((a.toNat : Int) - b.toNat) % 256 := by
  rw [BitVec.toNat_sub]
  omega

theorem Byte.sub_emod_eq_zero_iff (a b : Byte) : ((a.toNat : Int) - b.toNat) % 256 = 0 ↔ a = b := by
  rw [← BitVec.toNat_inj]
  omega

end Sys2Proof

namespace Sys2Proof.Machine

variable {W A : Nat} {σ : Type}

/-! ### An instruction that writes one register and goes on -/

theorem State.reg_setReg_advance_same (s : State.Of W A σ) (d : RegId) (v : BitVec W) :
    (s.setReg d v).advance.reg d = v := by simp

theorem writesOnlyReg_setReg_advance (s : State.Of W A σ) (d : RegId) (v : BitVec W) :
    WritesOnlyReg d s (s.setReg d v).advance :=
  ⟨fun r hr => by simp [hr], rfl, rfl, ⟨rfl, rfl, fun _ => rfl⟩, rfl, rfl, rfl⟩

/-! ### The five instructions -/

/-- Settles O33: the sum of two bytes as a number. -/
theorem addWritesTheWrappedSum : Obligations.AddWritesTheWrappedSum := by
  unfold Obligations.AddWritesTheWrappedSum
  refine fun d r => ⟨toNat_packA 0x0 d r, decodeWord_encode _, fun s =>
    ⟨_, exec_add d r s, ?_, writesOnlyReg_setReg_advance s d _⟩⟩
  rw [State.reg_setReg_advance_same]
  exact BitVec.toNat_add ..

/-- Settles O34: the wrapped difference as a number. -/
theorem subWritesTheWrappedDifference : Obligations.SubWritesTheWrappedDifference := by
  unfold Obligations.SubWritesTheWrappedDifference
  refine fun d r => ⟨toNat_packA 0x1 d r, decodeWord_encode _, fun s =>
    ⟨_, exec_sub d r s, ?_, writesOnlyReg_setReg_advance s d _⟩⟩
  rw [State.reg_setReg_advance_same]
  exact Byte.toNat_sub_emod ..

/-- Settles O35: the bits of a bitwise and. -/
theorem andWritesTheBitwiseAnd : Obligations.AndWritesTheBitwiseAnd := by
  unfold Obligations.AndWritesTheBitwiseAnd
  refine fun d r => ⟨toNat_packA 0x2 d r, decodeWord_encode _, fun s =>
    ⟨_, exec_and d r s, fun i _ => ?_, writesOnlyReg_setReg_advance s d _⟩⟩
  rw [State.reg_setReg_advance_same]
  exact BitVec.getLsbD_and

/-- Settles O36: the bits of a bitwise or. -/
theorem orWritesTheBitwiseOr : Obligations.OrWritesTheBitwiseOr := by
  unfold Obligations.OrWritesTheBitwiseOr
  refine fun d r => ⟨toNat_packA 0x3 d r, decodeWord_encode _, fun s =>
    ⟨_, exec_or d r s, fun i _ => ?_, writesOnlyReg_setReg_advance s d _⟩⟩
  rw [State.reg_setReg_advance_same]
  exact BitVec.getLsbD_or

/-- Settles O37: no parameter stands in CMP's meaning, and a wrapped difference is 0 only between equal bytes. -/
theorem cmpSetsZeroFlagOnEqual : Obligations.CmpSetsZeroFlagOnEqual := by
  unfold Obligations.CmpSetsZeroFlagOnEqual
  intro d r
  refine ⟨toNat_packA 0x4 d r, decodeWord_encode _, fun s => ⟨_, exec_cmp d r s, fun _ => rfl, ?_⟩⟩
  have hflag : compareFlag (s.reg d) (s.reg r) = true ↔ s.reg d = s.reg r := compareFlag_iff ..
  exact ⟨hflag.trans (Byte.sub_emod_eq_zero_iff ..).symm, hflag, fun _ => rfl, rfl, ⟨rfl, rfl, fun _ => rfl⟩,
    rfl, rfl, rfl⟩

end Sys2Proof.Machine
end

section
/-! PROOF. The instructions with an immediate, MOVI, ADDI, SUBI, ANDI and ORI (41_alu_immediate.md R72 to R76):
each writes one register and goes on, as the instructions between two registers do. -/

namespace Sys2Proof.Machine

/-- Settles O38: no parameter stands in MOVI's meaning, and at 8-bit registers the immediate is the value. -/
theorem moviWritesTheImmediate : Obligations.MoviWritesTheImmediate := by
  unfold Obligations.MoviWritesTheImmediate
  exact fun d imm => ⟨toNat_packB 0x5 d imm, decodeWord_encode _, fun s =>
    ⟨_, exec_movi d imm s, fun _ => exec_movi d imm s, State.reg_setReg_advance_same s d imm,
      writesOnlyReg_setReg_advance s d imm⟩⟩

/-- Settles O39: the sum of two bytes as a number. -/
theorem addiWritesTheWrappedSum : Obligations.AddiWritesTheWrappedSum := by
  unfold Obligations.AddiWritesTheWrappedSum
  refine fun d imm => ⟨toNat_packB 0x6 d imm, decodeWord_encode _, fun s =>
    ⟨_, exec_addi d imm s, ?_, writesOnlyReg_setReg_advance s d _⟩⟩
  rw [State.reg_setReg_advance_same]
  exact BitVec.toNat_add ..

/-- Settles O40: the wrapped difference as a number. -/
theorem subiWritesTheWrappedDifference : Obligations.SubiWritesTheWrappedDifference := by
  unfold Obligations.SubiWritesTheWrappedDifference
  refine fun d imm => ⟨toNat_packB 0x7 d imm, decodeWord_encode _, fun s =>
    ⟨_, exec_subi d imm s, ?_, writesOnlyReg_setReg_advance s d _⟩⟩
  rw [State.reg_setReg_advance_same]
  exact Byte.toNat_sub_emod ..

/-- Settles O41: the bits of a bitwise and. -/
theorem andiWritesTheBitwiseAnd : Obligations.AndiWritesTheBitwiseAnd := by
  unfold Obligations.AndiWritesTheBitwiseAnd
  refine fun d imm => ⟨toNat_packB 0x8 d imm, decodeWord_encode _, fun s =>
    ⟨_, exec_andi d imm s, fun i _ => ?_, writesOnlyReg_setReg_advance s d _⟩⟩
  rw [State.reg_setReg_advance_same]
  exact BitVec.getLsbD_and

/-- Settles O42: the bits of a bitwise or. -/
theorem oriWritesTheBitwiseOr : Obligations.OriWritesTheBitwiseOr := by
  unfold Obligations.OriWritesTheBitwiseOr
  refine fun d imm => ⟨toNat_packB 0x9 d imm, decodeWord_encode _, fun s =>
    ⟨_, exec_ori d imm s, fun i _ => ?_, writesOnlyReg_setReg_advance s d _⟩⟩
  rw [State.reg_setReg_advance_same]
  exact BitVec.getLsbD_or

end Sys2Proof.Machine
end

section
/-! SUPPORT and PROOF. LOAD and STORE (42_memory_access.md R78 to R80): the effective address as a number, and what
each of the two answers in each region of the memory map. -/

namespace Sys2Proof.Machine

variable {W A : Nat} {σ : Type}

/-- Zero-extension keeps a number only modulo the address space, where the sum is taken (R78). -/
theorem effAddr_toNat (s : State.Of W A σ) (b : RegId) (off : Off4) :
    (effAddr s b off).toNat = ((s.reg b).toNat + off.toNat) % 2 ^ A := by
  simp [effAddr]

/-! ### The answer of LOAD and of STORE, by region -/

section
variable {p : Params W A σ} {s : State.Of W A σ} {b : RegId} {off : Off4}

theorem loadUnder_of_ram_or_rom (h : p.memMap (effAddr s b off) = .ram ∨ p.memMap (effAddr s b off) = .rom)
    (d : RegId) :
    loadUnder p d b off s = .next (s.setReg d (regOfByte W (s.byte (effAddr s b off)))).advance := by
  rw [loadUnder, memRead_of_ram_or_rom h]

/-- The register gets the byte that the event records (20_memory.md R34). -/
theorem loadUnder_of_io (h : p.memMap (effAddr s b off) = .io) (d : RegId) :
    ∃ v, loadUnder p d b off s =
      .next ((s.logIo (.read (effAddr s b off) v)).setReg d (regOfByte W v)).advance := by
  rw [loadUnder, memRead_of_io h]
  exact ⟨_, rfl⟩

theorem loadUnder_of_unmapped (h : p.memMap (effAddr s b off) = .unmapped) (d : RegId) :
    loadUnder p d b off s = .next (s.raise (.accessFault (effAddr s b off) .read)) := by
  rw [loadUnder, memRead_of_unmapped h]

theorem storeUnder_of_ram (h : p.memMap (effAddr s b off) = .ram) (d : RegId) :
    storeUnder p d b off s = .next (s.setByte (effAddr s b off) (byteOfReg (s.reg d))).advance := by
  rw [storeUnder, memWrite_of_ram h]

theorem storeUnder_of_io (h : p.memMap (effAddr s b off) = .io) (d : RegId) :
    storeUnder p d b off s = .next (s.logIo (.write (effAddr s b off) (byteOfReg (s.reg d)))).advance := by
  rw [storeUnder, memWrite_of_io h]

theorem storeUnder_of_rom_or_unmapped
    (h : p.memMap (effAddr s b off) = .rom ∨ p.memMap (effAddr s b off) = .unmapped) (d : RegId) :
    storeUnder p d b off s = .next (s.raise (.accessFault (effAddr s b off) .write)) := by
  rw [storeUnder, memWrite_of_rom_or_unmapped h]

end

/-! ### The two instructions at 8-bit registers -/

theorem loadUnder_reads_byte {p : Params 8 8 Empty} {s : State} {b : RegId} {off : Off4}
    (h : p.memMap (effAddr s b off) = .ram ∨ p.memMap (effAddr s b off) = .rom) (d : RegId) :
    ∃ t, loadUnder p d b off s = .next t ∧ t.reg d = s.byte (effAddr s b off) ∧ WritesOnlyReg d s t := by
  refine ⟨_, loadUnder_of_ram_or_rom h d, ?_, writesOnlyReg_setReg_advance s d _⟩
  rw [State.reg_setReg_advance_same, regOfByte_eight]

/-- But for the event it adds, a LOAD at an `io` address changes what any LOAD changes. -/
theorem loadUnder_reads_io {p : Params 8 8 Empty} {s : State} {b : RegId} {off : Off4}
    (h : p.memMap (effAddr s b off) = .io) (d : RegId) :
    ∃ t v, loadUnder p d b off s = .next t ∧ t.reg d = v ∧
      t.ioLog = s.ioLog ++ [.read (effAddr s b off) v] ∧ WritesOnlyReg d s { t with ioLog := s.ioLog } := by
  obtain ⟨v, hload⟩ := loadUnder_of_io h d
  refine ⟨_, v, hload, ?_, rfl, writesOnlyReg_setReg_advance s d (regOfByte 8 v)⟩
  rw [State.reg_setReg_advance_same, regOfByte_eight]

/-- Settles O44: region by region; the decided map has every address in `ram`. -/
theorem loadReadsTheByteAtTheEffectiveAddress : Obligations.LoadReadsTheByteAtTheEffectiveAddress := by
  unfold Obligations.LoadReadsTheByteAtTheEffectiveAddress
  refine fun d b off => ⟨toNat_packC 0xA d b off, decodeWord_encode _, fun s => ⟨effAddr_toNat s b off, ?_, ?_⟩⟩
  · exact loadUnder_reads_byte (.inl (Config.memMap_params _)) d
  · exact fun p => ⟨fun h => loadUnder_reads_byte h d, fun h => loadUnder_reads_io h d,
      fun h => loadUnder_of_unmapped h d⟩

/-- Settles O45: region by region; where the address is in `ram` no other parameter bears on STORE. -/
theorem storeWritesTheByteAtTheEffectiveAddress : Obligations.StoreWritesTheByteAtTheEffectiveAddress := by
  unfold Obligations.StoreWritesTheByteAtTheEffectiveAddress
  refine fun d b off => ⟨toNat_packC 0xB d b off, decodeWord_encode _, fun s => ⟨effAddr_toNat s b off, ?_, ?_⟩⟩
  · refine ⟨_, exec_store d b off s, ?_, fun a ha => ?_, fun _ => rfl, rfl, rfl, rfl, rfl, rfl, rfl⟩
    · exact (State.byte_setByte s _ _ _).trans (if_pos rfl)
    · exact (State.byte_setByte s _ _ a).trans (if_neg ha)
  · refine fun p => ⟨fun h => ?_, fun h => ?_, fun h => storeUnder_of_rom_or_unmapped h d⟩
    · rw [exec_store, execUnder, storeUnder_of_ram h, byteOfReg_eight]
    · rw [execUnder, storeUnder_of_io h, byteOfReg_eight]
      rfl

end Sys2Proof.Machine
end

section
/-! SUPPORT and PROOF. The jumps JMP, JZ and JNZ (43_control_flow.md R83 to R87): the target as a number, where a jump
goes when it is taken and when it is not, and what it leaves unchanged. -/

namespace Sys2Proof.Machine

variable {W A : Nat} {σ : Type}

/-! ### The target of a jump (R83) -/

/-- The spec's `sext` is the two's complement value of the offset (30_encoding.md R51). -/
theorem sext8_eq_toInt (off : Byte) : sext8 off = off.toInt := by
  rw [sext8, BitVec.toInt]
  split_ifs <;> omega

theorem sext8_bounds (off : Byte) : -128 ≤ sext8 off ∧ sext8 off ≤ 127 := by
  have hlt : off.toNat < 256 := off.isLt
  rw [sext8]
  split_ifs <;> omega

/-- Sign-extension, or cutting at a width below 8, keeps a number modulo the address space, where the sum is taken. -/
theorem jumpTarget_eq_ofInt (pc : BitVec A) (off : Byte) :
    jumpTarget pc off = BitVec.ofInt A ((pc.toNat : Int) + 2 + sext8 off) := by
  have hpc : BitVec.ofInt A (pc.toNat : Int) = pc := by simp
  have htwo : BitVec.ofInt A 2 = 2 := BitVec.ofInt_ofNat A 2
  rw [BitVec.ofInt_add, BitVec.ofInt_add, hpc, htwo, sext8_eq_toInt]
  rfl

theorem jumpTarget_toNat (pc : BitVec A) (off : Byte) :
    ((jumpTarget pc off).toNat : Int) = ((pc.toNat : Int) + 2 + sext8 off) % (2 ^ A : Nat) := by
  have hpos : ((2 ^ A : Nat) : Int) ≠ 0 := by positivity
  rw [jumpTarget_eq_ofInt, BitVec.toNat_ofInt, Int.toNat_of_nonneg (Int.emod_nonneg _ hpos)]

theorem jumpTarget_toNat_eight (pc : Addr) (off : Byte) :
    ((jumpTarget pc off).toNat : Int) = ((pc.toNat : Int) + 2 + sext8 off) % 256 :=
  jumpTarget_toNat pc off

theorem jumpTarget_zero (pc : Addr) : jumpTarget pc 0 = pc + 2 := BitVec.add_zero _

/-- Offset -2 takes back the 2 that leads to the next instruction. -/
theorem jumpTarget_self (pc : Addr) : jumpTarget pc 0xFE = pc :=
  (BitVec.add_assoc pc 2 0xFE).trans (BitVec.add_zero pc)

/-- `pc + 2` is even and so is 2^8, so the offset alone decides (R87). -/
theorem jumpTarget_even_iff {pc : Addr} (hpc : pc.toNat % 2 = 0) (off : Byte) :
    (jumpTarget pc off).toNat % 2 = 0 ↔ off.toNat % 2 = 0 := by
  have htarget := jumpTarget_toNat_eight pc off
  rw [sext8] at htarget
  split_ifs at htarget <;> omega

/-- The low twelve bits of a word of type D: four reserved bits and the offset (30_encoding.md R48). -/
theorem packD_toNat_mod (op : Opcode) (off : Byte) : (packD op off).toNat % 4096 = off.toNat := by
  rw [toNat_packD]
  omega

/-! ### Jumps that are taken and jumps that are not -/

theorem exec_of_taken {i : Instr} {off : Byte} {s : State}
    (h : i = .jmp off ∨ (i = .jz off ∧ s.z = true) ∨ (i = .jnz off ∧ s.z = false)) :
    exec i s = .next (s.setPc (jumpTarget s.pc off)) := by
  obtain rfl | ⟨rfl, hz⟩ | ⟨rfl, hz⟩ := h
  · exact exec_jmp off s
  · rw [exec_jz, hz]; rfl
  · rw [exec_jnz, hz]; rfl

theorem exec_of_untaken {i : Instr} {off : Byte} {s : State}
    (h : (i = .jz off ∧ s.z = false) ∨ (i = .jnz off ∧ s.z = true)) : exec i s = .next s.advance := by
  obtain ⟨rfl, hz⟩ | ⟨rfl, hz⟩ := h
  · rw [exec_jz, hz]; rfl
  · rw [exec_jnz, hz]; rfl

theorem writesOnlyPc_setPc (s : State.Of W A σ) (t : BitVec A) : WritesOnlyPc s (s.setPc t) :=
  ⟨fun _ => rfl, rfl, ⟨rfl, rfl, fun _ => rfl⟩, rfl, rfl, rfl⟩

theorem writesOnlyPc_branch (taken : Bool) (off : Byte) (s : State.Of W A σ) :
    WritesOnlyPc s (s.branch taken off) := by
  cases taken with
  | false => exact writesOnlyPc_setPc s (s.pc + 2)
  | true => exact writesOnlyPc_setPc s (jumpTarget s.pc off)

/-- The flag that a CMP leaves (40_alu_register.md R69). -/
theorem z_iff_of_exec_cmp {a b : RegId} {u s : State} (h : exec (.cmp a b) u = .next s) :
    s.z = true ↔ u.reg a = u.reg b := by
  cases h
  exact compareFlag_iff (u.reg a) (u.reg b)

/-! ### The statements -/

/-- Settles O20: an odd target is a number whose parity the offset decides, and the check of the pc comes before
everything else in the next step. -/
theorem oddJumpCompletesAndTheNextStepFaults : Obligations.OddJumpCompletesAndTheNextStepFaults := by
  unfold Obligations.OddJumpCompletesAndTheNextStepFaults
  intro s off hpc
  have hparity := jumpTarget_even_iff hpc off
  refine ⟨hparity, fun hfault hodd i hi => ?_, fun i hi => ?_⟩
  · have htarget : (jumpTarget s.pc off).toNat % 2 = 1 := by omega
    exact ⟨_, exec_of_taken hi, rfl, hfault, oddPcRaisesMisalignedFetch (s.setPc _) hfault htarget⟩
  · have hnext : (s.pc + 2).toNat % 2 = 0 := jumpTarget_zero s.pc ▸ (jumpTarget_even_iff hpc 0).2 rfl
    exact ⟨_, exec_of_untaken hi, hnext, rfl⟩

/-- Settles O46: the target as a number at every width; what an instruction that is no jump does to the pc is what
`exec_pc_cases` leaves of it. -/
theorem jumpTargetIsRelativeToTheNextInstruction : Obligations.JumpTargetIsRelativeToTheNextInstruction := by
  unfold Obligations.JumpTargetIsRelativeToTheNextInstruction
  refine ⟨fun A pc off => ⟨jumpTarget_toNat pc off, sext8_bounds off⟩, fun off i hi => ?_,
    fun pc => ⟨jumpTarget_zero pc, jumpTarget_self pc⟩, fun off s => ⟨fun hz => ?_, fun hz => ?_⟩,
    fun i s t hjump hret ht => ?_⟩
  · obtain rfl | rfl | rfl := hi <;> exact packD_toNat_mod _ off
  · exact ⟨_, exec_of_untaken (.inl ⟨rfl, hz⟩), rfl⟩
  · exact ⟨_, exec_of_untaken (.inr ⟨rfl, hz⟩), rfl⟩
  · obtain hpc | ⟨off, hi, -⟩ | ⟨hi, -⟩ := exec_pc_cases ht
    · exact hpc
    · obtain ⟨hjmp, hjz, hjnz⟩ := hjump off
      obtain hi | ⟨hi, -⟩ | ⟨hi, -⟩ := hi
      · exact absurd hi hjmp
      · exact absurd hi hjz
      · exact absurd hi hjnz
    · exact absurd hi hret

/-- Settles O47: no parameter stands in JMP's meaning. -/
theorem jmpGoesToTheTarget : Obligations.JmpGoesToTheTarget := by
  unfold Obligations.JmpGoesToTheTarget
  exact fun off => ⟨toNat_packD 0xC off, decodeWord_encode _, fun s =>
    ⟨_, exec_jmp off s, fun _ => exec_jmp off s, jumpTarget_toNat_eight s.pc off, writesOnlyPc_setPc s _,
      fun hfault hodd => oddPcRaisesMisalignedFetch (s.setPc _) hfault hodd⟩⟩

/-- Settles O48: the branch on Z, which after a CMP is the equality of the registers. -/
theorem jzIsTakenExactlyWhenZeroFlagSet : Obligations.JzIsTakenExactlyWhenZeroFlagSet := by
  unfold Obligations.JzIsTakenExactlyWhenZeroFlagSet
  refine fun off => ⟨toNat_packD 0xD off, decodeWord_encode _, fun s =>
    ⟨_, exec_jz off s, fun hz => ?_, fun hz => ?_, writesOnlyPc_branch s.z off s, fun a b u hcmp => ?_⟩⟩
  · rw [hz]
    exact jumpTarget_toNat_eight s.pc off
  · rw [hz]
    rfl
  · simp only [State.pc_branch, z_iff_of_exec_cmp hcmp]

/-- Settles O49: the branch on the complement of Z, so that it is the other branch than JZ's. -/
theorem jnzIsTakenExactlyWhenZeroFlagClear : Obligations.JnzIsTakenExactlyWhenZeroFlagClear := by
  unfold Obligations.JnzIsTakenExactlyWhenZeroFlagClear
  refine fun off => ⟨toNat_packD 0xE off, decodeWord_encode _, fun s =>
    ⟨_, exec_jnz off s, fun hz => ?_, fun hz => ?_, writesOnlyPc_branch (!s.z) off s, fun a b u hcmp => ?_,
      _, exec_jz off s, ?_⟩⟩
  · rw [hz]
    exact jumpTarget_toNat_eight s.pc off
  · rw [hz]
    rfl
  · simp only [State.pc_branch, Bool.not_eq_true', ← Bool.not_eq_true, z_iff_of_exec_cmp hcmp, ite_not]
  · cases hz : s.z with
    | false => exact .inl ⟨rfl, rfl⟩
    | true => exact .inr ⟨rfl, rfl⟩

end Sys2Proof.Machine
end

section
/-! SUPPORT and PROOF. RET (43_control_flow.md R90, R91): the fault without a `RET_MODEL`, the pop with one, and that
no other instruction reads or writes the extra state S. -/

namespace Sys2Proof.Machine

variable {W A : Nat} {σ : Type}

/-! ### RET -/

/-- A first byte 0xF0 is opcode 1111 with no reserved bit set, and the low byte is no operand (decision D16). -/
theorem decodeWord_ret (low : Byte) : decodeWord (0xF0#8 ++ low) = .ok .ret := by
  have hword : 0xF0#8 ++ low = packD 0xF low := rfl
  have hop : opField (packD 0xF low) = 0xF := opField_packD 0xF low
  have hreserved : packD 0xF low &&& reservedMask (formatOf 0xF) = 0 := Laws.ReservedZero.packD_reserved 0xF low
  have hinstr : instrOf (packD 0xF low) = .ret := by rw [instrOf, hop]; rfl
  rw [hword, decodeWord, hop, if_pos hreserved, hinstr]

section
variable {p : Params W A σ} {s t : State.Of W A σ}

theorem retUnder_of_no_model (hmodel : p.retModel = none) (s : State.Of W A σ) :
    retUnder p s = .next (s.raise (.retStackUndefined s.pc)) := by
  simp only [retUnder, hmodel]

theorem retUnder_of_pop_ok {m : RetStack A σ} {S S' : σ} {a : BitVec A} (hmodel : p.retModel = some m)
    (hstack : s.stack = some S) (hpop : m.pop S s.byte = .ok (a, S')) :
    retUnder p s = .next ((s.setStack S').setPc a) := by
  simp only [retUnder, hmodel, hstack, Option.getD_some, hpop]

theorem retUnder_of_pop_error {m : RetStack A σ} {S : σ} {f : Fault.Of A} (hmodel : p.retModel = some m)
    (hstack : s.stack = some S) (hpop : m.pop S s.byte = .error f) : retUnder p s = .next (s.raise f) := by
  simp only [retUnder, hmodel, hstack, Option.getD_some, hpop]

/-! ### Instructions that neither read nor write S -/

/-- The state with another S, or none. -/
def State.Of.withStack (s : State.Of W A σ) (k : Option σ) : State.Of W A σ := { s with stack := k }

theorem writeAlu_withStack (d : RegId) (v : BitVec W) (k : Option σ) :
    (s.withStack k).writeAlu p d v = (s.writeAlu p d v).withStack k := by
  unfold State.Of.writeAlu State.Of.setAluZ
  split <;> rfl

theorem branch_withStack (taken : Bool) (off : Byte) (k : Option σ) :
    (s.withStack k).branch taken off = (s.branch taken off).withStack k := by
  cases taken <;> rfl

theorem effAddr_withStack (b : RegId) (off : Off4) (k : Option σ) :
    effAddr (s.withStack k) b off = effAddr s b off := rfl

theorem memRead_withStack (a : BitVec A) (k : Option σ) :
    memRead p a (s.withStack k) = (memRead p a s).map (Prod.map id (·.withStack k)) := by
  unfold memRead
  split <;> rfl

theorem memWrite_withStack (a : BitVec A) (v : Byte) (k : Option σ) :
    memWrite p a v (s.withStack k) = (memWrite p a v s).map (·.withStack k) := by
  unfold memWrite
  split <;> rfl

theorem loadUnder_withStack {d b : RegId} {off : Off4} (h : loadUnder p d b off s = .next t) (k : Option σ) :
    loadUnder p d b off (s.withStack k) = .next (t.withStack k) := by
  rw [loadUnder, effAddr_withStack, memRead_withStack]
  obtain ⟨v, u, hread, rfl⟩ | ⟨f, hread, rfl⟩ := loadUnder_cases h <;> rw [hread] <;> rfl

theorem storeUnder_withStack {d b : RegId} {off : Off4} (h : storeUnder p d b off s = .next t) (k : Option σ) :
    storeUnder p d b off (s.withStack k) = .next (t.withStack k) := by
  have hreg : (s.withStack k).reg d = s.reg d := rfl
  rw [storeUnder, effAddr_withStack, hreg, memWrite_withStack]
  obtain ⟨u, hwrite, rfl⟩ | ⟨f, hwrite, rfl⟩ := storeUnder_cases h <;> rw [hwrite] <;> rfl

/-- An instruction other than RET gives the same result whatever S is, and hands S on. -/
theorem execUnder_withStack {i : Instr} (hret : i ≠ .ret) (h : execUnder p i s = .next t) (k : Option σ) :
    execUnder p i (s.withStack k) = .next (t.withStack k) := by
  cases i with
  | add | sub | and | or | addi | subi | andi | ori =>
    cases h
    exact congrArg Host.Outcome.next (writeAlu_withStack ..)
  | jz | jnz =>
    cases h
    exact congrArg Host.Outcome.next (branch_withStack ..)
  | cmp | movi | jmp =>
    cases h
    rfl
  | load => exact loadUnder_withStack h k
  | store => exact storeUnder_withStack h k
  | ret => exact absurd rfl hret

/-- Taking the state's own S in `execUnder_withStack` gives the result back. -/
theorem execUnder_stack {i : Instr} (hret : i ≠ .ret) (h : execUnder p i s = .next t) : t.stack = s.stack := by
  have hsame : t = t.withStack s.stack := Host.Outcome.next.inj (h.symm.trans (execUnder_withStack hret h s.stack))
  exact congrArg (·.stack) hsame

end

/-! ### The statements -/

/-- Settles O50: RET has no model to pop from, and a word with a reserved bit set never reaches it. -/
theorem retRaisesRetStackUndefined : Obligations.RetRaisesRetStackUndefined := by
  unfold Obligations.RetRaisesRetStackUndefined
  refine ⟨toNat_packD 0xF 0, decodeWord_ret, exec_ret, fun s hfault heven hop hbits => ?_⟩
  have hreserved : SetsReservedBit (s.wordAt s.pc) := .inr (.inr (.inr ⟨by omega, hbits⟩))
  exact reservedBitSetRaisesIllegalInstruction.2 s hfault heven hreserved

/-- Settles O51: RET by the answer of pop, the other instructions by replacing S in the state they run in. -/
theorem retUnderASuppliedModelPops : Obligations.RetUnderASuppliedModelPops := by
  unfold Obligations.RetUnderASuppliedModelPops
  intro W A σ p
  refine ⟨retUnder_of_no_model, fun m hmodel => ⟨fun regs z mem code => ?_, fun s hlaunch => ?_, ?_⟩, ?_⟩
  · exact congrArg (Option.map RetStack.reset) hmodel
  · obtain ⟨-, -, -, hstack⟩ := hlaunch
    exact hstack.trans (congrArg (Option.map RetStack.reset) hmodel)
  · exact fun s S S' t f hstack => ⟨retUnder_of_pop_ok hmodel hstack, retUnder_of_pop_error hmodel hstack⟩
  · exact fun i s t hret h => ⟨execUnder_stack hret h, execUnder_withStack hret h⟩

end Sys2Proof.Machine
end

section
/-! SUPPORT and PROOF. Raising a fault (60_exceptions.md R92): an instruction either leaves the fault marker alone or
does nothing but set it, and a machine whose marker is set takes no further step. -/

namespace Sys2Proof.Machine

variable {W A : Nat} {σ : Type} {p : Params W A σ} {s t : State.Of W A σ}

/-! ### An instruction and the fault marker -/

theorem memRead_fault {a : BitVec A} {v : Byte} (h : memRead p a s = .ok (v, t)) : t.fault = s.fault := by
  obtain ⟨-, -, rfl⟩ | ⟨-, -, rfl⟩ := memRead_ok h
  · rfl
  · exact State.fault_logIo ..

theorem memWrite_fault {a : BitVec A} {v : Byte} (h : memWrite p a v s = .ok t) : t.fault = s.fault := by
  obtain ⟨-, rfl⟩ | ⟨-, rfl⟩ := memWrite_ok h
  · exact State.fault_setByte ..
  · exact State.fault_logIo ..

theorem loadUnder_keeps_fault_or_raises {d b : RegId} {off : Off4} (h : loadUnder p d b off s = .next t) :
    t.fault = s.fault ∨ ∃ f, t = s.raise f := by
  obtain ⟨v, u, hread, rfl⟩ | ⟨f, -, rfl⟩ := loadUnder_cases h
  · exact .inl (by simp [memRead_fault hread])
  · exact .inr ⟨f, rfl⟩

theorem storeUnder_keeps_fault_or_raises {d b : RegId} {off : Off4} (h : storeUnder p d b off s = .next t) :
    t.fault = s.fault ∨ ∃ f, t = s.raise f := by
  obtain ⟨u, hwrite, rfl⟩ | ⟨f, -, rfl⟩ := storeUnder_cases h
  · exact .inl (by simp [memWrite_fault hwrite])
  · exact .inr ⟨f, rfl⟩

theorem retUnder_keeps_fault_or_raises (h : retUnder p s = .next t) :
    t.fault = s.fault ∨ ∃ f, t = s.raise f := by
  obtain ⟨-, rfl⟩ | ⟨m, -, ⟨a, x, -, rfl⟩ | ⟨f, -, rfl⟩⟩ := retUnder_cases h
  · exact .inr ⟨_, rfl⟩
  · exact .inl rfl
  · exact .inr ⟨f, rfl⟩

/-- Only LOAD, STORE and RET can raise. -/
theorem execUnder_keeps_fault_or_raises {i : Instr} (h : execUnder p i s = .next t) :
    t.fault = s.fault ∨ ∃ f, t = s.raise f := by
  cases i with
  | add | sub | and | or | addi | subi | andi | ori =>
    cases h
    exact .inl (State.fault_writeAlu ..)
  | jz | jnz =>
    cases h
    exact .inl (State.fault_branch ..)
  | cmp | movi | jmp =>
    cases h
    exact .inl rfl
  | load => exact loadUnder_keeps_fault_or_raises h
  | store => exact storeUnder_keeps_fault_or_raises h
  | ret => exact retUnder_keeps_fault_or_raises h

/-! ### A step and the fault marker -/

/-- The checks before the instruction raise as the instruction does, and a step starts with the marker clear. -/
theorem stepUnder_fault_none_or_raises (h : stepUnder p s = .next t) : t.fault = none ∨ ∃ f, t = s.raise f := by
  obtain ⟨hclear, ⟨-, rfl⟩ | ⟨-, f, -, rfl⟩ | ⟨-, -, -, rfl⟩ | ⟨-, -, i, -, hrun⟩⟩ := cycle_cases h
  · exact .inr ⟨_, rfl⟩
  · exact .inr ⟨f, rfl⟩
  · exact .inr ⟨_, rfl⟩
  · exact hclear ▸ execUnder_keeps_fault_or_raises hrun

theorem stepUnder_eq_raise_of_fault {f : Fault.Of A} (h : stepUnder p s = .next t) (hf : t.fault = some f) :
    t = s.raise f := by
  obtain hclear | ⟨g, rfl⟩ := stepUnder_fault_none_or_raises h
  · cases hclear.symm.trans hf
  · cases hf
    rfl

theorem stepUnder_ne_next_of_fault {f : Fault.Of A} (hf : s.fault = some f) (u : State.Of W A σ) :
    stepUnder p s ≠ .next u := by
  intro h
  obtain ⟨hclear, -⟩ := cycle_cases h
  cases hclear.symm.trans hf

/-- Settles O11: a step that ends with the marker set has raised, and every step and every normal end needs a clear
marker. -/
theorem raisingChangesOnlyTheFaultMarker : Obligations.RaisingChangesOnlyTheFaultMarker := by
  unfold Obligations.RaisingChangesOnlyTheFaultMarker
  intro W A σ _ p s t f h hf
  refine ⟨stepUnder_eq_raise_of_fault h hf, stepUnder_ne_next_of_fault hf, Bool.eq_false_iff.2 fun hend => ?_⟩
  obtain ⟨hclear, -⟩ := endedNormallyUnder_iff.1 hend
  cases hclear.symm.trans hf

end Sys2Proof.Machine
end

section
/-! SUPPORT and PROOF. Reset, the first step and the end of a run (70_reset_and_hazards.md R107, R108, R112, R117): a
machine without a fault always steps, and it stays where it is exactly at a taken jump to itself. -/

namespace Sys2Proof.Machine

variable {W A : Nat} {σ : Type}

/-! ### The word of a jump -/

theorem opcodeOf_instrOf (iw : Word) : opcodeOf (instrOf iw) = opField iw := by
  have hlt : (opField iw).toNat < 16 := (opField iw).isLt
  apply BitVec.eq_of_toNat_eq
  rw [instrOf]
  generalize (opField iw).toNat = n at hlt ⊢
  interval_cases n <;> rfl

/-- A jump's word has no bit that its instruction does not fix (30_encoding.md R48, R54). -/
theorem eq_encode_of_decodeWord_jump {iw : Word} {i : Instr} {off : Byte}
    (hi : i = .jmp off ∨ i = .jz off ∨ i = .jnz off) (h : decodeWord iw = .ok i) : iw = encode i := by
  obtain ⟨hreserved, hinstr⟩ := decodeWord_ok h
  have hop : opField iw = opcodeOf i := by rw [hinstr, opcodeOf_instrOf]
  have hoff : off = payload iw := by
    rw [instrOf, hop] at hinstr
    obtain rfl | rfl | rfl := hi
    · exact Instr.jmp.inj hinstr
    · exact Instr.jz.inj hinstr
    · exact Instr.jnz.inj hinstr
  have hmask : reservedMask (formatOf (opcodeOf i)) = 0x0F00 := by obtain rfl | rfl | rfl := hi <;> rfl
  have hencode : encode i = packD (opcodeOf i) off := by obtain rfl | rfl | rfl := hi <;> rfl
  rw [hop, hmask] at hreserved
  rw [hencode, hoff, ← hop, packD_fields hreserved]

/-! ### A machine without a fault steps -/

theorem cycle_of_decode_ok {p : Params W A σ} (run : Instr → State.Of W A σ → ResultOf W A σ)
    {s : State.Of W A σ} {iw : Word} {i : Instr} (hfault : s.fault = none) (heven : s.pc.toNat % 2 = 0)
    (hfetch : fetch p s = .ok iw) (hdecode : decodeWith p.reservedNonzero iw = .ok i) :
    cycle p run s = run i s := by
  have hpc : s.oddPc = false := (State.oddPc_eq_false s).2 heven
  simp [cycle, hfault, hpc, hfetch, hdecode]

theorem step_of_decode_ok {s : State} {i : Instr} (hfault : s.fault = none) (heven : s.pc.toNat % 2 = 0)
    (hdecode : decodeWord (s.wordAt s.pc) = .ok i) : step s = exec i s :=
  cycle_of_decode_ok exec hfault heven (fetch_params s) hdecode

theorem exec_answers_next (i : Instr) (s : State) : ∃ t, exec i s = .next t := by
  cases i <;> exact ⟨_, rfl⟩

/-- Settles O10: the checks before the instruction raise, which is a next state too, and every instruction has one. -/
theorem unfaultedMachineAlwaysSteps : Obligations.UnfaultedMachineAlwaysSteps := by
  unfold Obligations.UnfaultedMachineAlwaysSteps
  intro s hfault
  obtain heven | hodd := Nat.mod_two_eq_zero_or_one s.pc.toNat
  · cases hdecode : decodeWord (s.wordAt s.pc) with
    | error e => exact ⟨_, cycle_of_decode_error exec hfault heven (fetch_params s) hdecode⟩
    | ok i => exact step_of_decode_ok hfault heven hdecode ▸ exec_answers_next i s
  · exact ⟨_, oddPcRaisesMisalignedFetch s hfault hodd⟩

/-! ### Reset and the first step -/

theorem launch_of_launch (p : Params W A σ) (regs : Vector (BitVec W) 8) (z : Bool) (mem code : Memory) :
    Launch p (State.launch p regs z mem code) :=
  ⟨rfl, rfl, rfl, rfl⟩

/-- Settles O26: `State.launch` takes the registers, the flag and the memory as they are given. -/
theorem resetLeavesPcAndFaultAndNothingElse : Obligations.ResetLeavesPcAndFaultAndNothingElse := by
  unfold Obligations.ResetLeavesPcAndFaultAndNothingElse
  exact ⟨rfl, rfl, launch_of_launch .., fun regs z mem =>
    ⟨_, launch_of_launch Config.params regs z mem [], rfl, rfl, rfl, rfl, rfl⟩⟩

/-- Settles O28: the word at the pc of a launch state is made of the bytes at 0x00 and 0x01. -/
theorem firstStepRunsTheInstructionAtResetPc : Obligations.FirstStepRunsTheInstructionAtResetPc := by
  unfold Obligations.FirstStepRunsTheInstructionAtResetPc
  refine ⟨rfl, fun s i hlaunch hdecode => ?_⟩
  obtain ⟨hpc, hfault, -, -⟩ := hlaunch
  have heven : s.pc.toNat % 2 = 0 := hpc ▸ rfl
  have hword : s.wordAt s.pc = s.byte 0x00 ++ s.byte 0x01 := hpc ▸ rfl
  exact step_of_decode_ok hfault heven (hword ▸ hdecode)

/-! ### The end of a run (R112) -/

theorem jumpTarget_eq_self_iff (pc : Addr) (off : Byte) : jumpTarget pc off = pc ↔ off = 0xFE := by
  refine ⟨fun h => ?_, fun h => h ▸ jumpTarget_self pc⟩
  have htarget := jumpTarget_toNat_eight pc off
  rw [h, sext8] at htarget
  apply BitVec.eq_of_toNat_eq
  change off.toNat = 254
  split_ifs at htarget <;> omega

/-- With Z = `z` the instruction is a taken jump with offset -2, to its own address. -/
def IsTakenSelfJump (z : Bool) (i : Instr) : Prop :=
  i = .jmp 0xFE ∨ (i = .jz 0xFE ∧ z = true) ∨ (i = .jnz 0xFE ∧ z = false)

theorem decodesToTakenSelfJump_iff (iw : Word) (z : Bool) :
    (∃ i, decodeWord iw = .ok i ∧ IsTakenSelfJump z i) ↔
      iw = 0xC0FE ∨ (iw = 0xD0FE ∧ z = true) ∨ (iw = 0xE0FE ∧ z = false) := by
  constructor
  · rintro ⟨i, hdecode, rfl | ⟨rfl, hz⟩ | ⟨rfl, hz⟩⟩
    · exact .inl (eq_encode_of_decodeWord_jump (.inl rfl) hdecode)
    · exact .inr (.inl ⟨eq_encode_of_decodeWord_jump (.inr (.inl rfl)) hdecode, hz⟩)
    · exact .inr (.inr ⟨eq_encode_of_decodeWord_jump (.inr (.inr rfl)) hdecode, hz⟩)
  · rintro (rfl | ⟨rfl, hz⟩ | ⟨rfl, hz⟩)
    · exact ⟨_, decodeWord_encode (.jmp 0xFE), .inl rfl⟩
    · exact ⟨_, decodeWord_encode (.jz 0xFE), .inr (.inl ⟨rfl, hz⟩)⟩
    · exact ⟨_, decodeWord_encode (.jnz 0xFE), .inr (.inr ⟨rfl, hz⟩)⟩

theorem exec_of_takenSelfJump {i : Instr} {s : State} (h : IsTakenSelfJump s.z i) : exec i s = .next s := by
  rw [exec_of_taken h, jumpTarget_self]
  rfl

theorem step_of_takenSelfJump {s : State} {i : Instr} (hfault : s.fault = none) (heven : s.pc.toNat % 2 = 0)
    (hdecode : decodeWord (s.wordAt s.pc) = .ok i) (hjump : IsTakenSelfJump s.z i) : step s = .next s :=
  (step_of_decode_ok hfault heven hdecode).trans (exec_of_takenSelfJump hjump)

/-- Every other instruction moves the pc or, as RET does, sets the fault marker. -/
theorem isTakenSelfJump_of_exec {i : Instr} {s t : State} (h : exec i s = .next t) (hpc : t.pc = s.pc)
    (hfault : t.fault = none) : IsTakenSelfJump s.z i := by
  obtain hnext | ⟨off, hi, htarget⟩ | ⟨rfl, -⟩ := exec_pc_cases h
  · have htarget : jumpTarget s.pc 0 = s.pc := (jumpTarget_zero s.pc).trans (hnext.symm.trans hpc)
    exact absurd ((jumpTarget_eq_self_iff s.pc 0).1 htarget) (by decide)
  · obtain rfl : off = 0xFE := (jumpTarget_eq_self_iff s.pc off).1 (htarget.symm.trans hpc)
    exact hi
  · cases h
    cases hfault

/-- A step that keeps the pc and the clear fault marker has run a taken jump to itself. -/
theorem takenSelfJump_of_step_same {s t : State} (h : step s = .next t) (hsame : SameState s t) :
    s.pc.toNat % 2 = 0 ∧ ∃ i, decodeWord (s.wordAt s.pc) = .ok i ∧ IsTakenSelfJump s.z i := by
  obtain ⟨-, hpc, -, -, hfault⟩ := hsame
  obtain ⟨hclear, hcases⟩ := cycle_cases h
  have hnone : t.fault = none := hfault.symm.trans hclear
  obtain ⟨-, rfl⟩ | ⟨-, f, -, rfl⟩ | ⟨-, -, -, rfl⟩ | ⟨heven, -, i, hdecode, hrun⟩ := hcases
  · cases hnone
  · cases hnone
  · cases hnone
  · exact ⟨heven, i, hdecode, isTakenSelfJump_of_exec hrun hpc.symm hnone⟩

theorem SameState.refl (s : State) : SameState s s := (SameUnder.refl Config.params s).1

theorem sameUnder_params_iff (s t : State) : SameUnder Config.params s t ↔ SameState s t := by
  simp [SameUnder]

theorem endedNormally_iff_step_same (s : State) :
    endedNormally s = true ↔ s.fault = none ∧ ∃ t, step s = .next t ∧ SameState s t := by
  simp only [endedNormally, endedNormallyUnder_iff, step_eq_stepUnder, sameUnder_params_iff]

theorem endedNormally_iff_takenSelfJump (s : State) :
    endedNormally s = true ↔ s.fault = none ∧ s.pc.toNat % 2 = 0 ∧
      ∃ i, decodeWord (s.wordAt s.pc) = .ok i ∧ IsTakenSelfJump s.z i := by
  rw [endedNormally_iff_step_same]
  refine and_congr_right fun hfault => ⟨fun ⟨t, h, hsame⟩ => takenSelfJump_of_step_same h hsame, ?_⟩
  rintro ⟨heven, i, hdecode, hjump⟩
  exact ⟨s, step_of_takenSelfJump hfault heven hdecode hjump, SameState.refl s⟩

/-- At a normal end the state yielded again is the very state, the model's own fields included. -/
theorem endedNormally_iff_step_self (s : State) :
    endedNormally s = true ↔ s.fault = none ∧ step s = .next s := by
  constructor
  · intro hend
    obtain ⟨hfault, heven, i, hdecode, hjump⟩ := (endedNormally_iff_takenSelfJump s).1 hend
    exact ⟨hfault, step_of_takenSelfJump hfault heven hdecode hjump⟩
  · rintro ⟨hfault, hstep⟩
    exact (endedNormally_iff_step_same s).2 ⟨hfault, s, hstep, SameState.refl s⟩

theorem endedAbnormally_iff (s : State.Of W A σ) : endedAbnormally s = true ↔ s.fault ≠ none :=
  Option.isSome_iff_ne_none

/-- Settles O58: the three descriptions of a normal end, each of which asks for a clear fault marker. -/
theorem runEndsNormallyExactlyAtATakenSelfJump : Obligations.RunEndsNormallyExactlyAtATakenSelfJump := by
  unfold Obligations.RunEndsNormallyExactlyAtATakenSelfJump
  intro s
  have hwords := endedNormally_iff_takenSelfJump s
  rw [decodesToTakenSelfJump_iff] at hwords
  refine ⟨endedNormally_iff_step_same s, endedNormally_iff_step_self s, hwords, endedAbnormally_iff s, ?_⟩
  rintro ⟨hnormal, habnormal⟩
  obtain ⟨hfault, -⟩ := hwords.1 hnormal
  exact (endedAbnormally_iff s).1 habnormal hfault

end Sys2Proof.Machine
end

section
/-! SUPPORT and PROOF. The words of the opcode table (30_encoding.md R54 to R58), the assembler's words (R63), and the
words that the spec writes out. -/

namespace Sys2Proof.Machine

/-- Settles O1: the two bytes of an encoded instruction are put together again before they are decoded. -/
theorem decodeOfEncodeGivesTheInstruction : Obligations.DecodeOfEncodeGivesTheInstruction := by
  unfold Obligations.DecodeOfEncodeGivesTheInstruction
  refine fun i rest => ⟨decodeWord_encode i, ?_⟩
  rw [encodeBytes, List.cons_append, List.cons_append, List.nil_append, decode, wordOfBytes_first_second,
    decodeWord_encode]
  rfl

/-! ### The word of a word's fields -/

/-- The fields of a word, packed again in its own format. -/
def repack (iw : Word) : Word :=
  match formatOf (opField iw) with
  | .a => packA (opField iw) (dField iw) (sField iw)
  | .b => packB (opField iw) (dField iw) (payload iw)
  | .c => packC (opField iw) (dField iw) (sField iw) (off4Field iw)
  | .d => packD (opField iw) (payload iw)

/-- Packing the fields clears the reserved bits and keeps every other bit (R56). -/
theorem repack_eq_and (iw : Word) : repack iw = iw &&& ~~~reservedMask (formatOf (opField iw)) := by
  unfold repack
  cases formatOf (opField iw) <;>
    (ext k hk
     interval_cases k <;>
       simp [getElem_packA, getElem_packB, getElem_packC, getElem_packD, opField, dField, sField, off4Field, payload,
         reservedMask])

theorem repack_of_reserved_zero {iw : Word} (h : iw &&& reservedMask (formatOf (opField iw)) = 0) :
    repack iw = iw := by
  rw [repack_eq_and]
  ext k hk
  have hbit := getLsbD_of_and_eq_zero h k
  grind

/-- RET alone has bits that no field of the instruction holds (R48). -/
theorem encode_instrOf {iw : Word} (h : opField iw ≠ 0xF) : encode (instrOf iw) = repack iw := by
  rw [instrOf, repack]
  generalize opField iw = op at h ⊢
  obtain ⟨n, hn⟩ := op
  have hne : n ≠ 15 := by
    rintro rfl
    exact h rfl
  have hlt : n < 15 := by omega
  interval_cases n <;> rfl

theorem instrOf_of_opField_ret {iw : Word} (h : opField iw = 0xF) : instrOf iw = .ret := by
  rw [instrOf, h]
  rfl

/-- The word with its reserved bits cleared is the instruction that its other bits give (R57; log 16). -/
theorem decodeWord_repack (iw : Word) : decodeWord (repack iw) = .ok (instrOf iw) := by
  by_cases hop : opField iw = 0xF
  · have hword : repack iw = 0xF0#8 ++ payload iw := by rw [repack, hop]; rfl
    rw [hword, decodeWord_ret, instrOf_of_opField_ret hop]
  · rw [← encode_instrOf hop, decodeWord_encode]

@[simp] theorem firstByte_wordOfBytes (first second : Byte) : firstByte (wordOfBytes first second) = first :=
  BitVec.extractLsb'_append_eq_left

/-- RET is known by its first byte: the opcode and four reserved bits (R48, R56). -/
theorem decodeWord_eq_ret_iff (iw : Word) : decodeWord iw = .ok .ret ↔ firstByte iw = 0xF0 := by
  constructor
  · intro h
    obtain ⟨hreserved, hinstr⟩ := decodeWord_ok h
    have hop : opField iw = 0xF := by rw [← opcodeOf_instrOf, ← hinstr]; rfl
    have hword : iw = wordOfBytes 0xF0 (payload iw) := by
      conv_lhs => rw [← repack_of_reserved_zero hreserved, repack, hop]
      rfl
    rw [hword, firstByte_wordOfBytes]
  · intro h
    rw [← wordOfBytes_first_second iw, h]
    exact decodeWord_ret _

/-- Settles O2: without reserved bits set the word is its fields packed, which but for RET is the encoding. -/
theorem legalWordIsItsInstructionsEncoding : Obligations.LegalWordIsItsInstructionsEncoding := by
  unfold Obligations.LegalWordIsItsInstructionsEncoding
  refine ⟨fun iw i h => ?_, fun iw => ⟨rfl, instrOf iw, rfl, repack_eq_and iw ▸ decodeWord_repack iw⟩⟩
  obtain ⟨hreserved, rfl⟩ := decodeWord_ok h
  by_cases hop : opField iw = 0xF
  · have hret := instrOf_of_opField_ret hop
    exact .inr ⟨hret, (decodeWord_eq_ret_iff iw).1 (hret ▸ h)⟩
  · exact .inl ((encode_instrOf hop).trans (repack_of_reserved_zero hreserved))

/-! ### The masks of the opcode table -/

theorem opField_and_rowMask (iw : Word) (f : Format) : opField (iw &&& (0xF000 ||| reservedMask f)) = opField iw := by
  cases f <;> exact BitVec.extractLsb'_and.trans BitVec.and_allOnes

theorem and_opcodeMask (iw : Word) : iw &&& 0xF000 = packD (opField iw) 0 := by
  ext k hk
  interval_cases k <;> simp [getElem_packD, opField]

/-- No reserved bit is a bit of the opcode. -/
theorem and_opcodeMask_and_reservedMask (iw : Word) (f : Format) : iw &&& 0xF000 &&& reservedMask f = 0 := by
  have hdisjoint : 0xF000 &&& reservedMask f = 0 := by cases f <;> rfl
  rw [BitVec.and_assoc, hdisjoint]
  exact BitVec.and_zero

/-- A row's mask holds the opcode and the reserved bits of its format, its match the opcode alone. -/
theorem and_rowMask_iff (iw : Word) (op : Opcode) :
    iw &&& (0xF000 ||| reservedMask (formatOf op)) = packD op 0 ↔
      opField iw = op ∧ iw &&& reservedMask (formatOf (opField iw)) = 0 := by
  constructor
  · intro h
    obtain rfl : opField iw = op := by rw [← opField_and_rowMask iw (formatOf op), h, opField_packD]
    refine ⟨rfl, ?_⟩
    have hmask (m : Word) : iw &&& m = iw &&& (0xF000 ||| m) &&& m := by grind
    rw [hmask, h, ← and_opcodeMask, and_opcodeMask_and_reservedMask]
  · rintro ⟨rfl, hreserved⟩
    rw [BitVec.and_or_distrib_left, hreserved, and_opcodeMask]
    exact BitVec.or_zero

theorem rowMask_of_decode {iw : Word} {i : Instr} (op : Opcode) (h : decodeWord iw = .ok i)
    (hop : opcodeOf i = op) : iw &&& (0xF000 ||| reservedMask (formatOf op)) = packD op 0 := by
  obtain ⟨hreserved, rfl⟩ := decodeWord_ok h
  exact (and_rowMask_iff iw op).2 ⟨(opcodeOf_instrOf iw).symm.trans hop, hreserved⟩

theorem decode_of_rowMask {iw : Word} {i : Instr} (op : Opcode)
    (h : iw &&& (0xF000 ||| reservedMask (formatOf op)) = packD op 0) (hi : opField iw = op → instrOf iw = i) :
    decodeWord iw = .ok i := by
  obtain ⟨hop, hreserved⟩ := (and_rowMask_iff iw op).1 h
  rw [decodeWord, if_pos hreserved, hi hop]

/-- Settles O3: the row of a word gives its opcode, and the opcode which of the sixteen instructions it is. -/
theorem wordIsRowExactlyWhenMaskMatches : Obligations.WordIsRowExactlyWhenMaskMatches := by
  unfold Obligations.WordIsRowExactlyWhenMaskMatches
  intro iw
  refine ⟨
    ⟨fun ⟨_, _, h⟩ => rowMask_of_decode 0x0 h rfl, fun h => ⟨dField iw, sField iw, decode_of_rowMask 0x0 h ?_⟩⟩,
    ⟨fun ⟨_, _, h⟩ => rowMask_of_decode 0x1 h rfl, fun h => ⟨dField iw, sField iw, decode_of_rowMask 0x1 h ?_⟩⟩,
    ⟨fun ⟨_, _, h⟩ => rowMask_of_decode 0x2 h rfl, fun h => ⟨dField iw, sField iw, decode_of_rowMask 0x2 h ?_⟩⟩,
    ⟨fun ⟨_, _, h⟩ => rowMask_of_decode 0x3 h rfl, fun h => ⟨dField iw, sField iw, decode_of_rowMask 0x3 h ?_⟩⟩,
    ⟨fun ⟨_, _, h⟩ => rowMask_of_decode 0x4 h rfl, fun h => ⟨dField iw, sField iw, decode_of_rowMask 0x4 h ?_⟩⟩,
    ⟨fun ⟨_, _, h⟩ => rowMask_of_decode 0x5 h rfl, fun h => ⟨dField iw, payload iw, decode_of_rowMask 0x5 h ?_⟩⟩,
    ⟨fun ⟨_, _, h⟩ => rowMask_of_decode 0x6 h rfl, fun h => ⟨dField iw, payload iw, decode_of_rowMask 0x6 h ?_⟩⟩,
    ⟨fun ⟨_, _, h⟩ => rowMask_of_decode 0x7 h rfl, fun h => ⟨dField iw, payload iw, decode_of_rowMask 0x7 h ?_⟩⟩,
    ⟨fun ⟨_, _, h⟩ => rowMask_of_decode 0x8 h rfl, fun h => ⟨dField iw, payload iw, decode_of_rowMask 0x8 h ?_⟩⟩,
    ⟨fun ⟨_, _, h⟩ => rowMask_of_decode 0x9 h rfl, fun h => ⟨dField iw, payload iw, decode_of_rowMask 0x9 h ?_⟩⟩,
    ⟨fun ⟨_, _, _, h⟩ => rowMask_of_decode 0xA h rfl,
      fun h => ⟨dField iw, sField iw, off4Field iw, decode_of_rowMask 0xA h ?_⟩⟩,
    ⟨fun ⟨_, _, _, h⟩ => rowMask_of_decode 0xB h rfl,
      fun h => ⟨dField iw, sField iw, off4Field iw, decode_of_rowMask 0xB h ?_⟩⟩,
    ⟨fun ⟨_, h⟩ => rowMask_of_decode 0xC h rfl, fun h => ⟨payload iw, decode_of_rowMask 0xC h ?_⟩⟩,
    ⟨fun ⟨_, h⟩ => rowMask_of_decode 0xD h rfl, fun h => ⟨payload iw, decode_of_rowMask 0xD h ?_⟩⟩,
    ⟨fun ⟨_, h⟩ => rowMask_of_decode 0xE h rfl, fun h => ⟨payload iw, decode_of_rowMask 0xE h ?_⟩⟩,
    ⟨fun h => rowMask_of_decode 0xF h rfl, fun h => decode_of_rowMask 0xF h ?_⟩⟩
  all_goals
    intro hop
    rw [instrOf, hop]
    rfl

/-- Settles O6: the ten words. -/
theorem wordsOfTheSpecDecode : Obligations.WordsOfTheSpecDecode := by
  unfold Obligations.WordsOfTheSpecDecode
  decide

/-! ### The assembler (R63) -/

/-- The word of a line whose operands are in range. -/
theorem encode_asmInstr {l : AsmLine} (h : l.wellFormed = true) : ((encode (asmInstr l)).toNat : Int) = asmValue l := by
  cases l with
  | typeA op d s =>
    simp only [AsmLine.wellFormed, Bool.and_eq_true, decide_eq_true_eq] at h
    obtain ⟨hd, hs⟩ := h
    cases op <;> simp [asmInstr, asmValue, encode, opcodeOf, toNat_packA] <;> omega
  | typeB op d imm =>
    simp only [AsmLine.wellFormed, Bool.and_eq_true, decide_eq_true_eq] at h
    obtain ⟨hd, himm⟩ := h
    cases op <;> simp [asmInstr, asmValue, encode, opcodeOf, toNat_packB] <;> omega
  | typeC op d b off =>
    simp only [AsmLine.wellFormed, Bool.and_eq_true, decide_eq_true_eq] at h
    obtain ⟨⟨hd, hb⟩, hoff⟩ := h
    cases op <;> simp [asmInstr, asmValue, encode, opcodeOf, toNat_packC] <;> omega
  | typeD op off =>
    cases op <;> simp [asmInstr, asmValue, encode, opcodeOf, toNat_packD] <;> omega
  | ret => rfl

/-- Settles O5: an operand in range is the number that its field holds. -/
theorem assembledWordFollowsTheFormula : Obligations.AssembledWordFollowsTheFormula := by
  unfold Obligations.AssembledWordFollowsTheFormula
  exact fun l => ⟨fun h => ⟨asmInstr l, if_pos h, encode_asmInstr h⟩, fun h => if_neg (Bool.eq_false_iff.1 h)⟩

end Sys2Proof.Machine
end

section
/-! SUPPORT and PROOF. One step (10_state.md R14): the order of its checks (60_exceptions.md R96), the fetch by region
(20_memory.md R32), the faults of the decided machine (R93), and the result of every instruction in every state. -/

namespace Sys2Proof.Machine

variable {W A : Nat} {σ : Type} {p : Params W A σ} {i : Instr} {s t : State.Of W A σ}

/-! ### The fetch, by region -/

theorem fetchable_of_ram_or_rom {a : BitVec A} (h : p.memMap a = .ram ∨ p.memMap a = .rom) :
    fetchable p a = true := by
  rcases h with h | h <;> simp only [fetchable, h]

theorem not_fetchable_of_io_or_unmapped {a : BitVec A} (h : p.memMap a = .io ∨ p.memMap a = .unmapped) :
    fetchable p a = false := by
  rcases h with h | h <;> simp only [fetchable, h]

theorem fetch_of_ram_or_rom (hpc : p.memMap s.pc = .ram ∨ p.memMap s.pc = .rom)
    (hnext : p.memMap (s.pc + 1) = .ram ∨ p.memMap (s.pc + 1) = .rom) : fetch p s = .ok (codeWord p s s.pc) := by
  simp only [fetch, fetchable_of_ram_or_rom hpc, fetchable_of_ram_or_rom hnext, if_true]

theorem fetch_of_pc_io_or_unmapped (hpc : p.memMap s.pc = .io ∨ p.memMap s.pc = .unmapped) :
    fetch p s = .error (.accessFault s.pc .fetch) := by
  simp only [fetch, not_fetchable_of_io_or_unmapped hpc, Bool.false_eq_true, if_false]

theorem fetch_of_next_io_or_unmapped (hpc : p.memMap s.pc = .ram ∨ p.memMap s.pc = .rom)
    (hnext : p.memMap (s.pc + 1) = .io ∨ p.memMap (s.pc + 1) = .unmapped) :
    fetch p s = .error (.accessFault (s.pc + 1) .fetch) := by
  simp only [fetch, fetchable_of_ram_or_rom hpc, not_fetchable_of_io_or_unmapped hnext, if_true, Bool.false_eq_true,
    if_false]

/-- The last address of an address space of at least two is odd, so an even one has a next. -/
theorem toNat_add_one_of_even {a : BitVec A} (hA : 0 < A) (heven : a.toNat % 2 = 0) : (a + 1).toNat = a.toNat + 1 := by
  obtain ⟨n, rfl⟩ : ∃ n, A = n + 1 := ⟨A - 1, by omega⟩
  have hlt := a.isLt
  have hpos : 0 < 2 ^ n := Nat.two_pow_pos n
  rw [Nat.pow_succ] at hlt
  have hone : (1 : BitVec (n + 1)).toNat = 1 := by simp
  rw [BitVec.toNat_add, hone, Nat.pow_succ, Nat.mod_eq_of_lt (by omega)]

/-- Settles O32: the check of the pc, then that of pc + 1, then the two bytes. -/
theorem fetchByRegion : Obligations.FetchByRegion := by
  unfold Obligations.FetchByRegion
  refine ⟨fun W A σ p s heven => ⟨fun hA => toNat_add_one_of_even hA heven, fetch_of_pc_io_or_unmapped,
    fun hpc => ⟨fetch_of_next_io_or_unmapped hpc, fun hnext hunified hbig => ?_⟩⟩, fetch_params⟩
  rw [fetch_of_ram_or_rom hpc hnext]
  simp only [codeWord, codeByte, wordOfBytes, hunified, hbig, if_true]

/-! ### The checks of a step -/

theorem cycle_of_fault (p : Params W A σ) (run : Instr → State.Of W A σ → ResultOf W A σ) {f : Fault.Of A}
    (hfault : s.fault = some f) : cycle p run s = .fault f := by
  simp only [cycle, hfault]

theorem cycle_of_fetch_error (run : Instr → State.Of W A σ → ResultOf W A σ) {f : Fault.Of A} (hfault : s.fault = none)
    (heven : s.pc.toNat % 2 = 0) (hfetch : fetch p s = .error f) : cycle p run s = .next (s.raise f) := by
  have hpc : s.oddPc = false := (State.oddPc_eq_false s).2 heven
  simp [cycle, hfault, hpc, hfetch]

/-- Settles O9. -/
theorem faultedMachineHasNoFurtherStep : Obligations.FaultedMachineHasNoFurtherStep := by
  unfold Obligations.FaultedMachineHasNoFurtherStep
  exact fun s f hfault => cycle_of_fault Config.params exec hfault

/-- Settles O7: every check passes. -/
theorem stepRunsTheDecodedInstruction : Obligations.StepRunsTheDecodedInstruction := by
  unfold Obligations.StepRunsTheDecodedInstruction
  exact ⟨fun s i hfault heven hdecode => step_of_decode_ok hfault heven hdecode,
    fun W A σ p s iw i hfault heven hfetch hdecode => cycle_of_decode_ok (execUnder p) hfault heven hfetch hdecode⟩

/-- Settles O13: one clause per check, each with the checks before it passed. -/
theorem checksAreMadeInTheSpecsOrder : Obligations.ChecksAreMadeInTheSpecsOrder := by
  unfold Obligations.ChecksAreMadeInTheSpecsOrder
  intro W A σ p s
  refine ⟨fun hfault => ⟨cycle_of_odd_pc p _ hfault, fun heven hpc => ?_, fun heven hpc hnext => ?_,
    fun heven hpc hnext => ?_⟩, fun hfault => ?_⟩
  · exact cycle_of_fetch_error _ hfault heven (fetch_of_pc_io_or_unmapped hpc)
  · exact cycle_of_fetch_error _ hfault heven (fetch_of_next_io_or_unmapped hpc hnext)
  · have hfetch := fetch_of_ram_or_rom hpc hnext
    have hrun {i : Instr} (hdecode : decodeWith p.reservedNonzero (codeWord p s s.pc) = .ok i) :
        stepUnder p s = execUnder p i s := cycle_of_decode_ok (execUnder p) hfault heven hfetch hdecode
    refine ⟨fun hreserved hbit => ?_, fun hdecode hmodel => ?_, fun d b off hdecode hmap => ?_,
      fun d b off hdecode hmap => ?_⟩
    · have hdecode := (congrArg (decodeWith · _) hreserved).trans (decodeWord_of_setsReservedBit hbit)
      exact cycle_of_decode_error _ hfault heven hfetch hdecode
    · exact (hrun hdecode).trans (retUnder_of_no_model hmodel s)
    · exact (hrun hdecode).trans (loadUnder_of_unmapped hmap d)
    · exact (hrun hdecode).trans (storeUnder_of_rom_or_unmapped hmap d)
  · obtain ⟨f, hf⟩ := Option.ne_none_iff_exists'.1 hfault
    exact stepUnder_ne_next_of_fault hf

/-- Settles O15: the decided machine is defined by the parameterised one, arm by arm. -/
theorem decidedMachineIsTheParameterisedOne : Obligations.DecidedMachineIsTheParameterisedOne := by
  unfold Obligations.DecidedMachineIsTheParameterisedOne
  exact ⟨exec_eq_execUnder, step_eq_stepUnder, fun _ => rfl, fun _ _ => rfl, rfl, rfl, rfl, rfl, rfl, rfl, fun _ => rfl⟩

/-! ### The faults of the decided machine (R93) -/

theorem setsReservedBit_of_decodeWord_error {iw : Word} {e : DecodeError} (h : decodeWord iw = .error e) :
    SetsReservedBit iw :=
  (setsReservedBit_iff iw).2 (decodeWord_error h).1

theorem not_setsReservedBit_of_decodeWord_ok {iw : Word} (h : decodeWord iw = .ok i) : ¬ SetsReservedBit iw := by
  intro hbit
  cases h.symm.trans (decodeWord_of_setsReservedBit hbit)

theorem decodeWord_wordAt_eq_ret_iff (s : State) (a : Addr) :
    decodeWord (s.wordAt a) = .ok .ret ↔ s.byte a = 0xF0 := by
  rw [decodeWord_eq_ret_iff, State.Of.wordAt, firstByte_wordOfBytes]

/-- With every address in `ram` only RET raises. -/
theorem exec_fault_of_ne_ret {s t : State} (hret : i ≠ .ret) (h : exec i s = .next t) : t.fault = s.fault := by
  cases i with
  | ret => exact absurd rfl hret
  | jz | jnz =>
    cases h
    exact State.fault_branch ..
  | _ =>
    cases h
    rfl

theorem exec_fault_iff {s t : State} (hclear : s.fault = none) (h : exec i s = .next t) (f : Fault) :
    t.fault = some f ↔ i = .ret ∧ f = .retStackUndefined s.pc := by
  by_cases hret : i = .ret
  · subst hret
    cases h
    simp [eq_comm]
  · simp [hret, exec_fault_of_ne_ret hret h, hclear]

/-- Settles O12: of the ways a step can end, the fetch's fault does not occur, and the others exclude each other. -/
theorem decidedMachineFaultsInThreeWays : Obligations.DecidedMachineFaultsInThreeWays := by
  unfold Obligations.DecidedMachineFaultsInThreeWays
  intro s t f h
  obtain ⟨hclear, ⟨hodd, rfl⟩ | ⟨-, g, hfetch, -⟩ | ⟨heven, -, ⟨e, hdecode⟩, rfl⟩ | ⟨heven, -, i, hdecode, hrun⟩⟩ :=
    cycle_cases h
  · constructor
    · rintro ⟨⟩
      exact .inl ⟨hodd, rfl⟩
    · rintro (⟨-, rfl⟩ | ⟨heven, -⟩ | ⟨heven, -⟩)
      · rfl
      · omega
      · omega
  · cases hfetch
  · constructor
    · rintro ⟨⟩
      exact .inr (.inl ⟨heven, setsReservedBit_of_decodeWord_error hdecode, rfl⟩)
    · rintro (⟨hodd, -⟩ | ⟨-, -, rfl⟩ | ⟨-, hbyte, -⟩)
      · omega
      · rfl
      · cases hdecode.symm.trans ((decodeWord_wordAt_eq_ret_iff s s.pc).2 hbyte)
  · have hbit : ¬ SetsReservedBit (s.wordAt s.pc) := not_setsReservedBit_of_decodeWord_ok hdecode
    have hfault : t.fault = some f ↔ i = .ret ∧ f = .retStackUndefined s.pc := exec_fault_iff hclear hrun f
    have hret : i = .ret ↔ s.byte s.pc = 0xF0 := by
      rw [← decodeWord_wordAt_eq_ret_iff]
      exact ⟨fun hi => hi ▸ hdecode, fun hi => Except.ok.inj (hdecode.symm.trans hi)⟩
    rw [hfault, hret]
    constructor
    · exact fun h => .inr (.inr ⟨heven, h⟩)
    · rintro (⟨hodd, -⟩ | ⟨-, hset, -⟩ | ⟨-, h⟩)
      · omega
      · exact absurd hset hbit
      · exact h

/-! ### The parity of the pc (10_state.md R15) -/

theorem addr_add_two_even {pc : Addr} (h : pc.toNat % 2 = 0) : (pc + 2).toNat % 2 = 0 :=
  jumpTarget_zero pc ▸ (jumpTarget_even_iff h 0).2 rfl

/-- Settles O19: a raise keeps the pc, and of what an instruction does to the pc only an odd target is odd. -/
theorem pcTurnsOddOnlyByATakenOddJump : Obligations.PcTurnsOddOnlyByATakenOddJump := by
  unfold Obligations.PcTurnsOddOnlyByATakenOddJump
  intro s t heven h hodd
  obtain ⟨-, ⟨-, rfl⟩ | ⟨-, f, -, rfl⟩ | ⟨-, -, -, rfl⟩ | ⟨-, -, i, hdecode, hrun⟩⟩ := cycle_cases h
  · simp [heven] at hodd
  · simp [heven] at hodd
  · simp [heven] at hodd
  · obtain hpc | ⟨off, hi, hpc⟩ | ⟨-, hpc⟩ := exec_pc_cases hrun
    · have hnext := addr_add_two_even heven
      rw [hpc] at hodd
      omega
    · have htarget := jumpTarget_even_iff heven off
      have hoff : off.toNat % 2 = 1 := by
        rw [hpc] at hodd
        omega
      refine ⟨off, hoff, hpc, ?_⟩
      obtain rfl | ⟨rfl, hz⟩ | ⟨rfl, hz⟩ := hi
      · exact .inl hdecode
      · exact .inr (.inl ⟨hdecode, hz⟩)
      · exact .inr (.inr ⟨hdecode, hz⟩)
    · rw [hpc] at hodd
      omega

/-! ### Every instruction answers, and so does every step without a fault (60_exceptions.md section 6) -/

theorem loadUnder_answers_next (p : Params W A σ) (d b : RegId) (off : Off4) (s : State.Of W A σ) :
    ∃ t, loadUnder p d b off s = .next t := by
  unfold loadUnder
  split <;> exact ⟨_, rfl⟩

theorem storeUnder_answers_next (p : Params W A σ) (d b : RegId) (off : Off4) (s : State.Of W A σ) :
    ∃ t, storeUnder p d b off s = .next t := by
  unfold storeUnder
  split <;> exact ⟨_, rfl⟩

theorem retUnder_answers_next (p : Params W A σ) (s : State.Of W A σ) : ∃ t, retUnder p s = .next t := by
  unfold retUnder
  split
  · exact ⟨_, rfl⟩
  · split <;> exact ⟨_, rfl⟩

theorem execUnder_answers_next (p : Params W A σ) (i : Instr) (s : State.Of W A σ) :
    ∃ t, execUnder p i s = .next t := by
  cases i with
  | load d b off => exact loadUnder_answers_next p d b off s
  | store d b off => exact storeUnder_answers_next p d b off s
  | ret => exact retUnder_answers_next p s
  | _ => exact ⟨_, rfl⟩

/-- 70_reset_and_hazards.md R117 under any parameters: a raise is a next state too, and every instruction has one. -/
theorem stepUnder_answers_next (hfault : s.fault = none) : ∃ t, stepUnder p s = .next t := by
  obtain heven | hodd := Nat.mod_two_eq_zero_or_one s.pc.toNat
  · cases hfetch : fetch p s with
    | error f => exact ⟨_, cycle_of_fetch_error _ hfault heven hfetch⟩
    | ok iw =>
      cases hdecode : decodeWith p.reservedNonzero iw with
      | error e => exact ⟨_, cycle_of_decode_error _ hfault heven hfetch hdecode⟩
      | ok i =>
        obtain ⟨t, ht⟩ := execUnder_answers_next p i s
        exact ⟨t, (cycle_of_decode_ok _ hfault heven hfetch hdecode).trans ht⟩
  · exact ⟨_, cycle_of_odd_pc p _ hfault hodd⟩

theorem toNat_sub_emod (a b : BitVec W) : ((a - b).toNat : Int) = ((a.toNat : Int) - b.toNat) % (2 ^ W : Nat) := by
  have hb : b.toNat ≤ 2 ^ W := b.isLt.le
  rw [BitVec.toNat_sub, Int.natCast_emod, Int.natCast_add, Int.natCast_sub hb, sub_add_eq_add_sub, add_sub_assoc,
    Int.add_emod_left]

theorem toNat_regOfByte (v : Byte) : (regOfByte W v).toNat = v.toNat % 2 ^ W := BitVec.toNat_setWidth ..

theorem State.reg_writeAlu_same (p : Params W A σ) (d : RegId) (v : BitVec W) (s : State.Of W A σ) :
    (s.writeAlu p d v).reg d = v := by simp

/-- Settles O14: the result of each instruction, at any width. -/
theorem everyInstructionAnswersInEveryState : Obligations.EveryInstructionAnswersInEveryState := by
  unfold Obligations.EveryInstructionAnswersInEveryState
  intro W A σ p i s
  obtain ⟨t, ht⟩ := execUnder_answers_next p i s
  refine ⟨t, ht, ?_⟩
  cases i with
  | add d r =>
    cases ht
    exact (congrArg BitVec.toNat (State.reg_writeAlu_same ..)).trans (BitVec.toNat_add ..)
  | sub d r =>
    cases ht
    simp only [State.reg_writeAlu_same, toNat_sub_emod]
  | and d r =>
    cases ht
    simp only [State.reg_writeAlu_same, BitVec.toNat_and]
  | or d r =>
    cases ht
    simp only [State.reg_writeAlu_same, BitVec.toNat_or]
  | cmp d r =>
    cases ht
    exact compareFlag_iff ..
  | movi d imm =>
    cases ht
    simp only [State.reg_setReg_advance_same, toNat_regOfByte]
  | addi d imm =>
    cases ht
    simp only [State.reg_writeAlu_same, BitVec.toNat_add, toNat_regOfByte, Nat.add_mod_mod]
  | subi d imm =>
    cases ht
    simp only [State.reg_writeAlu_same, toNat_sub_emod, toNat_regOfByte]
    simp
  | andi d imm =>
    cases ht
    simp only [State.reg_writeAlu_same, BitVec.toNat_and, toNat_regOfByte]
  | ori d imm =>
    cases ht
    simp only [State.reg_writeAlu_same, BitVec.toNat_or, toNat_regOfByte]
  | load d b off =>
    intro hmap
    cases ht.symm.trans (loadUnder_of_ram_or_rom hmap d)
    simp only [State.reg_setReg_advance_same, toNat_regOfByte]
  | store d b off =>
    intro hmap
    cases ht.symm.trans (storeUnder_of_ram hmap d)
    simp [byteOfReg]
  | jmp off =>
    cases ht
    rfl
  | jz off =>
    cases ht
    exact State.pc_branch ..
  | jnz off =>
    cases ht
    cases hz : s.z <;> simp
  | ret =>
    intro hmodel
    exact Host.Outcome.next.inj (ht.symm.trans (retUnder_of_no_model hmodel s))

end Sys2Proof.Machine
end

section
/-! SUPPORT and PROOF. What a step writes to memory, to the instruction memory and to the `io` history (20_memory.md
sections 1 and 5, 42_memory_access.md section 2), and that it keeps the canonical form. -/

namespace Sys2Proof.Machine

variable {W A : Nat} {σ : Type} {p : Params W A σ} {i : Instr} {s t : State.Of W A σ}

/-! ### Memory and instruction memory after an instruction -/

theorem memRead_mem_code {a : BitVec A} {v : Byte} (h : memRead p a s = .ok (v, t)) :
    t.mem = s.mem ∧ t.code = s.code := by
  obtain ⟨-, -, rfl⟩ | ⟨-, -, rfl⟩ := memRead_ok h
  · exact ⟨rfl, rfl⟩
  · exact ⟨rfl, rfl⟩

theorem loadUnder_mem_code {d b : RegId} {off : Off4} (h : loadUnder p d b off s = .next t) :
    t.mem = s.mem ∧ t.code = s.code := by
  obtain ⟨v, u, hread, rfl⟩ | ⟨f, -, rfl⟩ := loadUnder_cases h
  · obtain ⟨hmem, hcode⟩ := memRead_mem_code hread
    exact ⟨hmem, hcode⟩
  · exact ⟨rfl, rfl⟩

theorem retUnder_mem_code (h : retUnder p s = .next t) : t.mem = s.mem ∧ t.code = s.code := by
  obtain ⟨-, rfl⟩ | ⟨m, -, ⟨a, x, -, rfl⟩ | ⟨f, -, rfl⟩⟩ := retUnder_cases h
  · exact ⟨rfl, rfl⟩
  · exact ⟨rfl, rfl⟩
  · exact ⟨rfl, rfl⟩

/-- STORE writes at most the byte at its effective address. -/
theorem storeUnder_mem_code {d b : RegId} {off : Off4} (h : storeUnder p d b off s = .next t) :
    (t.mem = s.mem ∨ ∃ v, t.mem = (s.setByte (effAddr s b off) v).mem) ∧ t.code = s.code := by
  obtain ⟨u, hwrite, rfl⟩ | ⟨f, -, rfl⟩ := storeUnder_cases h
  · obtain ⟨-, rfl⟩ | ⟨-, rfl⟩ := memWrite_ok hwrite
    · exact ⟨.inr ⟨_, rfl⟩, rfl⟩
    · exact ⟨.inl rfl, rfl⟩
  · exact ⟨.inl rfl, rfl⟩

/-- Everything an instruction can do to the two memories (10_state.md section 1). -/
theorem execUnder_mem_code (h : execUnder p i s = .next t) :
    (t.mem = s.mem ∨ ∃ d b off v, i = .store d b off ∧ t.mem = (s.setByte (effAddr s b off) v).mem) ∧
      t.code = s.code := by
  cases i with
  | add | sub | and | or | addi | subi | andi | ori =>
    cases h
    exact ⟨.inl (State.mem_writeAlu ..), State.code_writeAlu ..⟩
  | jz | jnz =>
    cases h
    exact ⟨.inl (State.mem_branch ..), State.code_branch ..⟩
  | cmp | movi | jmp =>
    cases h
    exact ⟨.inl rfl, rfl⟩
  | load => exact (loadUnder_mem_code h).imp_left .inl
  | store d b off => exact (storeUnder_mem_code h).imp_left (Or.imp_right fun ⟨v, hv⟩ => ⟨d, b, off, v, rfl, hv⟩)
  | ret => exact (retUnder_mem_code h).imp_left .inl

/-- Settles O23: memory is as it was or has one byte replaced, and only a STORE replaces it. -/
theorem onlyStoreWritesMemory : Obligations.OnlyStoreWritesMemory := by
  unfold Obligations.OnlyStoreWritesMemory
  intro W A σ p i s t h
  obtain ⟨hmem | ⟨d, b, off, v, rfl, hmem⟩, hcode⟩ := execUnder_mem_code h
  · exact ⟨fun _ => hmem, fun _ _ _ _ a _ => by simp only [State.Of.byte, hmem], hcode⟩
  · refine ⟨fun hstore => absurd rfl (hstore d b off), fun d' b' off' hi a ha => ?_, hcode⟩
    cases hi
    have hbyte : t.byte a = (s.setByte (effAddr s b off) v).byte a := by simp only [State.Of.byte, hmem]
    rw [hbyte, State.byte_setByte, if_neg ha]

/-! ### The canonical form -/

theorem execUnder_keeps_mem_wf (hwf : s.mem.wfAt (2 ^ A)) (h : execUnder p i s = .next t) : t.mem.wfAt (2 ^ A) := by
  obtain ⟨hmem | ⟨d, b, off, v, -, hmem⟩, -⟩ := execUnder_mem_code h
  · exact hmem ▸ hwf
  · exact hmem ▸ State.setByte_wf hwf _ v

/-- A step that raises leaves both memories alone, any other does what its instruction does. -/
theorem stepUnder_keeps_mem_wf (hwf : s.mem.wfAt (2 ^ A)) (h : stepUnder p s = .next t) : t.mem.wfAt (2 ^ A) := by
  obtain ⟨-, ⟨-, rfl⟩ | ⟨-, f, -, rfl⟩ | ⟨-, -, -, rfl⟩ | ⟨-, -, i, -, hrun⟩⟩ := cycle_cases h
  · exact hwf
  · exact hwf
  · exact hwf
  · exact execUnder_keeps_mem_wf hwf hrun

theorem stepUnder_code (h : stepUnder p s = .next t) : t.code = s.code := by
  obtain ⟨-, ⟨-, rfl⟩ | ⟨-, f, -, rfl⟩ | ⟨-, -, -, rfl⟩ | ⟨-, -, i, -, hrun⟩⟩ := cycle_cases h
  · rfl
  · rfl
  · rfl
  · exact (execUnder_mem_code hrun).2

/-- Settles O17: a byte is only ever written inside the address space, and the instruction memory never. -/
theorem stepUnderAnyParametersKeepsMemoryCanonical : Obligations.StepUnderAnyParametersKeepsMemoryCanonical := by
  unfold Obligations.StepUnderAnyParametersKeepsMemoryCanonical
  rintro W A σ p s t ⟨hmem, hcode⟩ h
  exact ⟨stepUnder_keeps_mem_wf hmem h, stepUnder_code h ▸ hcode⟩

/-- Settles O16: the decided machine has 2^8 addresses. -/
theorem stepKeepsMemoryCanonical : Obligations.StepKeepsMemoryCanonical := by
  unfold Obligations.StepKeepsMemoryCanonical
  exact fun s t hwf h => stepUnder_keeps_mem_wf (A := 8) hwf (step_eq_stepUnder s ▸ h)

/-! ### The `io` history (R34) -/

/-- Everything LOAD can do to the `io` history. -/
theorem loadUnder_ioLog {d b : RegId} {off : Off4} (h : loadUnder p d b off s = .next t) :
    t.ioLog = s.ioLog ∨ (p.memMap (effAddr s b off) = .io ∧
      ∃ v, t.ioLog = s.ioLog ++ [.read (effAddr s b off) v] ∧ t.reg d = regOfByte W v ∧ t.mem = s.mem) := by
  obtain ⟨v, u, hread, rfl⟩ | ⟨f, -, rfl⟩ := loadUnder_cases h
  · obtain ⟨-, -, rfl⟩ | ⟨hio, -, rfl⟩ := memRead_ok hread
    · exact .inl rfl
    · exact .inr ⟨hio, v, rfl, State.reg_setReg_advance_same .., rfl⟩
  · exact .inl rfl

/-- Everything STORE can do to the `io` history. -/
theorem storeUnder_ioLog {d b : RegId} {off : Off4} (h : storeUnder p d b off s = .next t) :
    t.ioLog = s.ioLog ∨ (p.memMap (effAddr s b off) = .io ∧
      t.ioLog = s.ioLog ++ [.write (effAddr s b off) (byteOfReg (s.reg d))] ∧ t.mem = s.mem) := by
  obtain ⟨u, hwrite, rfl⟩ | ⟨f, -, rfl⟩ := storeUnder_cases h
  · obtain ⟨-, rfl⟩ | ⟨hio, rfl⟩ := memWrite_ok hwrite
    · exact .inl rfl
    · exact .inr ⟨hio, rfl, rfl⟩
  · exact .inl rfl

theorem retUnder_ioLog (h : retUnder p s = .next t) : t.ioLog = s.ioLog := by
  obtain ⟨-, rfl⟩ | ⟨m, -, ⟨a, x, -, rfl⟩ | ⟨f, -, rfl⟩⟩ := retUnder_cases h
  · rfl
  · rfl
  · rfl

/-- Everything an instruction can do to the `io` history. -/
theorem execUnder_ioLog (h : execUnder p i s = .next t) :
    t.ioLog = s.ioLog ∨
    (∃ d b off v, i = .load d b off ∧ p.memMap (effAddr s b off) = .io ∧
      t.ioLog = s.ioLog ++ [.read (effAddr s b off) v] ∧ t.reg d = regOfByte W v ∧ t.mem = s.mem) ∨
    (∃ d b off, i = .store d b off ∧ p.memMap (effAddr s b off) = .io ∧
      t.ioLog = s.ioLog ++ [.write (effAddr s b off) (byteOfReg (s.reg d))] ∧ t.mem = s.mem) := by
  cases i with
  | add | sub | and | or | addi | subi | andi | ori =>
    cases h
    exact .inl (State.ioLog_writeAlu ..)
  | jz | jnz =>
    cases h
    exact .inl (State.ioLog_branch ..)
  | cmp | movi | jmp =>
    cases h
    exact .inl rfl
  | load d b off =>
    obtain hsame | ⟨hio, v, hread⟩ := loadUnder_ioLog h
    · exact .inl hsame
    · exact .inr (.inl ⟨d, b, off, v, rfl, hio, hread⟩)
  | store d b off =>
    obtain hsame | ⟨hio, hwrite⟩ := storeUnder_ioLog h
    · exact .inl hsame
    · exact .inr (.inr ⟨d, b, off, rfl, hio, hwrite⟩)
  | ret => exact .inl (retUnder_ioLog h)

/-- Settles O24: a step that raises adds no event, any other adds what its instruction adds. -/
theorem ioHistoryGrowsByTheStepsAccess : Obligations.IoHistoryGrowsByTheStepsAccess := by
  unfold Obligations.IoHistoryGrowsByTheStepsAccess
  intro W A σ p s t h
  obtain ⟨-, ⟨-, rfl⟩ | ⟨-, f, -, rfl⟩ | ⟨-, -, -, rfl⟩ | ⟨-, -, i, hdecode, hrun⟩⟩ := cycle_cases h
  · exact .inl rfl
  · exact .inl rfl
  · exact .inl rfl
  · obtain hsame | ⟨d, b, off, v, rfl, hread⟩ | ⟨d, b, off, rfl, hwrite⟩ := execUnder_ioLog hrun
    · exact .inl hsame
    · exact .inr (.inl ⟨d, b, off, v, hdecode, hread⟩)
    · exact .inr (.inr ⟨d, b, off, hdecode, hwrite⟩)

/-! ### A placed instruction (20_memory.md R26, 70_reset_and_hazards.md R109) -/

theorem decodeWith_encode (r : ReservedNonzero) (i : Instr) : decodeWith r (encode i) = .ok i := by
  cases r with
  | fault => exact decodeWord_encode i
  | ignore => exact congrArg Except.ok (instrOf_encode i)

@[simp] theorem State.pc_placeWord (a : BitVec A) (iw : Word) : (s.placeWord p a iw).pc = s.pc := by
  unfold State.Of.placeWord; split <;> rfl

@[simp] theorem State.fault_placeWord (a : BitVec A) (iw : Word) : (s.placeWord p a iw).fault = s.fault := by
  unfold State.Of.placeWord; split <;> rfl

/-- Placing writes where the fetch reads, in the byte order in which it reads. -/
theorem codeByte_placeWord (a : BitVec A) (iw : Word) (c : BitVec A) :
    codeByte p (s.placeWord p a iw) c =
      if c = a + 1 then (if p.fetchBigEndian then secondByte iw else firstByte iw)
      else if c = a then (if p.fetchBigEndian then firstByte iw else secondByte iw) else codeByte p s c := by
  cases h : p.unifiedMemory <;> simp [codeByte, State.Of.placeWord, State.Of.byte, h, Memory.read_placeWord]

/-- With one address only, `a + 1` would be `a`. -/
theorem add_one_ne_self (hA : 0 < A) (a : BitVec A) : a + 1 ≠ a := by
  simp [Nat.pos_iff_ne_zero.1 hA]

theorem codeWord_placeWord (hA : 0 < A) (a : BitVec A) (iw : Word) :
    codeWord p (s.placeWord p a iw) a = iw := by
  rw [codeWord, codeByte_placeWord, codeByte_placeWord, if_neg (add_one_ne_self hA a).symm, if_pos rfl, if_pos rfl]
  cases p.fetchBigEndian <;> exact wordOfBytes_first_second iw

theorem stepUnder_placeWord (hA : 0 < A) (hfault : s.fault = none) (heven : s.pc.toNat % 2 = 0)
    (hpc : p.memMap s.pc = .ram ∨ p.memMap s.pc = .rom)
    (hnext : p.memMap (s.pc + 1) = .ram ∨ p.memMap (s.pc + 1) = .rom) (i : Instr) :
    stepUnder p (s.placeWord p s.pc (encode i)) = execUnder p i (s.placeWord p s.pc (encode i)) := by
  have hfetch : fetch p (s.placeWord p s.pc (encode i)) = .ok (encode i) := by
    rw [fetch_of_ram_or_rom (by simpa using hpc) (by simpa using hnext), State.pc_placeWord, codeWord_placeWord hA]
  exact cycle_of_decode_ok (execUnder p) (by simpa using hfault) (by simpa using heven) hfetch (decodeWith_encode _ i)

theorem withFetchWord_toNat (s : State) (iw : Word) :
    s.withFetchWord 16 iw.toNat = s.placeWord Config.params s.pc iw := by
  rw [State.withFetchWord, Nat.mod_eq_of_lt iw.isLt, BitVec.ofNat_toNat, BitVec.setWidth_eq]

/-- Settles O29: the fetch gives the placed word back, and every `RESERVED_NONZERO` decodes it alike. -/
theorem placedInstructionIsTheNextStep : Obligations.PlacedInstructionIsTheNextStep := by
  unfold Obligations.PlacedInstructionIsTheNextStep
  refine ⟨fun s i hfault heven => ?_, fun W A σ p s i hA => ⟨?_, fun hfault heven hpc hnext =>
    stepUnder_placeWord hA hfault heven hpc hnext i⟩⟩
  · rw [withFetchWord_toNat]
    refine ⟨?_, fun a hpc hnext => ?_, fun hwf => Memory.placeWord_wf (A := 8) hwf true s.pc (encode i)⟩
    · rw [step_eq_stepUnder, exec_eq_execUnder]
      exact stepUnder_placeWord (by decide) hfault heven (.inl rfl) (.inl rfl) i
    · have hbyte := codeByte_placeWord (p := Config.params) (s := s) s.pc (encode i) a
      rwa [if_neg hnext, if_neg hpc] at hbyte
  · rw [codeByte_placeWord, if_neg (add_one_ne_self hA s.pc).symm, if_pos rfl]

/-! ### The fetch after a store (R37, R40) -/

theorem wordAt_of_exec_store {d b : RegId} {off : Off4} {s t : State} (h : exec (.store d b off) s = .next t)
    (a : Addr) : t.wordAt a = (if a = effAddr s b off then s.reg d else s.byte a) ++
      (if a + 1 = effAddr s b off then s.reg d else s.byte (a + 1)) := by
  cases h
  exact congrArg₂ (· ++ ·) (State.byte_setByte ..) (State.byte_setByte ..)

/-- A STORE goes on to the next instruction without a fault. -/
theorem step_of_exec_store {d b : RegId} {off : Off4} {s t : State} {i : Instr} (hfault : s.fault = none)
    (heven : s.pc.toNat % 2 = 0) (h : exec (.store d b off) s = .next t)
    (hdecode : decodeWord (t.wordAt (s.pc + 2)) = .ok i) : step t = exec i t := by
  cases h
  exact step_of_decode_ok hfault (addr_add_two_even heven) hdecode

/-- Settles O53: a word after a STORE, byte by byte; with separate memories no instruction writes what is fetched. -/
theorem nextFetchSeesTheStoredByte : Obligations.NextFetchSeesTheStoredByte := by
  unfold Obligations.NextFetchSeesTheStoredByte
  refine ⟨fun d b off s t i hfault heven h => ?_, fun W A σ p i s t hsplit h a => ?_⟩
  · have hword := wordAt_of_exec_store h
    have hodd : s.pc + 2 + 1 = s.pc + 3 := BitVec.add_assoc s.pc 2 1
    have hne : s.pc + 2 ≠ s.pc + 3 := by bv_omega
    refine ⟨hword, fun hea hdecode => step_of_exec_store hfault heven h ?_,
      fun hea hdecode => step_of_exec_store hfault heven h ?_⟩
    · rwa [hword, hea, if_pos rfl, hodd, if_neg hne.symm]
    · rwa [hword, hea, hodd, if_neg hne, if_pos rfl]
  · have hcode : t.code = s.code := (execUnder_mem_code h).2
    simp [codeWord, codeByte, hsplit, hcode]

end Sys2Proof.Machine
end

section
/-! SUPPORT and PROOF. Equality of states (10_state.md R24): canonical memories are told apart by their bytes, and
nothing but what R24 lists, with what a parameter adds, tells apart what two states step to. -/

namespace Sys2Proof.Machine

variable {W A : Nat} {σ : Type}

/-! ### Canonical memories -/

/-- In canonical form a cell is listed exactly when its address reads as its byte and that is not the unlisted one. -/
theorem Memory.mem_iff_read {m : Memory} {n : Nat} (h : m.wfAt n) (c : Host.Cell) :
    c ∈ m ↔ m.read c.1 = c.2 ∧ c.2 ≠ Memory.unlisted := by
  induction m with
  | nil => simp [Memory.read, eq_comm]
  | cons d m ih =>
    obtain ⟨hsorted, hcells⟩ := h
    obtain ⟨hlt, hsorted⟩ := List.pairwise_cons.1 hsorted
    obtain ⟨⟨-, hd⟩, hcells⟩ := List.forall_mem_cons.1 hcells
    have ih := ih ⟨hsorted, hcells⟩
    rw [List.mem_cons, Memory.read]
    split
    · next haddr =>
      have hnot : c ∉ m := fun hc => by
        have := hlt c hc
        omega
      constructor
      · rintro (rfl | hc)
        · exact ⟨rfl, hd⟩
        · exact absurd hc hnot
      · rintro ⟨hv, -⟩
        exact .inl (Prod.ext haddr hv.symm)
    · next haddr =>
      have hne : c ≠ d := fun h => haddr (congrArg Prod.fst h)
      simp [hne, ih]

/-- Sorted lists with the same cells are the same list. -/
theorem Memory.ext_read {m m' : Memory} {n : Nat} (h : m.wfAt n) (h' : m'.wfAt n)
    (hread : ∀ a < n, m.read a = m'.read a) : m = m' := by
  have hout {k : Memory} (hk : k.wfAt n) {a : Nat} (ha : n ≤ a) : k.read a = Memory.unlisted :=
    Memory.read_of_not_mem fun c hc => by
      obtain ⟨hlt, -⟩ := hk.2 c hc
      omega
  have hall (a : Nat) : m.read a = m'.read a := by
    by_cases ha : a < n
    · exact hread a ha
    · rw [hout h (by omega), hout h' (by omega)]
  refine List.Pairwise.eq_of_mem_iff h.1 h'.1 fun c => ?_
  rw [Memory.mem_iff_read h, Memory.mem_iff_read h', hall]

/-! ### States that no step tells apart -/

/-- Two states agree as R24 and the parameters ask (log 20) and, where `counted` holds, in the number of `io` events
so far, at which the value of an `io` read is drawn (log 6). -/
structure Alike (p : Params W A σ) (counted : Prop) (s s' : State.Of W A σ) : Prop where
  reg : ∀ r, s'.reg r = s.reg r
  pc : s'.pc = s.pc
  z : s'.z = s.z
  byte : ∀ a, s'.byte a = s.byte a
  fault : s'.fault = s.fault
  code : p.unifiedMemory = false → ∀ a : BitVec A, s'.code.read a.toNat = s.code.read a.toNat
  stack : p.retModel.isSome → s'.stack = s.stack
  events : counted → s'.ioLog.length = s.ioLog.length

section
variable {p : Params W A σ} {counted : Prop} {s s' t : State.Of W A σ}

theorem alike_iff : Alike p counted s s' ↔ SameUnder p s s' ∧ (counted → s.ioLog.length = s'.ioLog.length) := by
  constructor
  · intro h
    exact ⟨⟨⟨fun r => (h.reg r).symm, h.pc.symm, h.z.symm, fun a => (h.byte a).symm, h.fault.symm⟩,
      fun hc a => (h.code hc a).symm, fun hm => (h.stack hm).symm⟩, fun hn => (h.events hn).symm⟩
  · rintro ⟨⟨⟨hreg, hpc, hz, hbyte, hfault⟩, hcode, hstack⟩, hevents⟩
    exact ⟨fun r => (hreg r).symm, hpc.symm, hz.symm, fun a => (hbyte a).symm, hfault.symm,
      fun hc a => (hcode hc a).symm, fun hm => (hstack hm).symm, fun hn => (hevents hn).symm⟩

namespace Alike

theorem setReg (h : Alike p counted s s') (d : RegId) (v : BitVec W) :
    Alike p counted (s.setReg d v) (s'.setReg d v) :=
  { h with reg := fun r => by simp [h.reg] }

theorem setZ (h : Alike p counted s s') (b : Bool) : Alike p counted (s.setZ b) (s'.setZ b) :=
  { h with z := rfl }

theorem setPc (h : Alike p counted s s') (a : BitVec A) : Alike p counted (s.setPc a) (s'.setPc a) :=
  { h with pc := rfl }

theorem setByte (h : Alike p counted s s') (a : BitVec A) (v : Byte) :
    Alike p counted (s.setByte a v) (s'.setByte a v) :=
  { h with byte := fun c => by simp [h.byte] }

theorem logIo (h : Alike p counted s s') (e : IoEvent A) : Alike p counted (s.logIo e) (s'.logIo e) :=
  { h with events := fun hn => by simp [h.events hn] }

theorem raise (h : Alike p counted s s') (f : Fault.Of A) : Alike p counted (s.raise f) (s'.raise f) :=
  { h with fault := rfl }

theorem setStack (h : Alike p counted s s') (x : σ) : Alike p counted (s.setStack x) (s'.setStack x) :=
  { h with stack := fun _ => rfl }

theorem advance (h : Alike p counted s s') : Alike p counted s.advance s'.advance := by
  simpa only [State.Of.advance, h.pc] using h.setPc (s.pc + 2)

theorem writeAlu (h : Alike p counted s s') (d : RegId) (v : BitVec W) :
    Alike p counted (s.writeAlu p d v) (s'.writeAlu p d v) := by
  unfold State.Of.writeAlu State.Of.setAluZ
  split
  · exact ((h.setReg d v).setZ _).advance
  · exact (h.setReg d v).advance

theorem branch (h : Alike p counted s s') (taken : Bool) (off : Byte) :
    Alike p counted (s.branch taken off) (s'.branch taken off) := by
  cases taken
  · exact h.advance
  · simpa only [State.Of.branch, if_true, h.pc] using h.setPc (jumpTarget s.pc off)

theorem effAddr (h : Alike p counted s s') (b : RegId) (off : Off4) :
    Machine.effAddr s' b off = Machine.effAddr s b off := effAddr_congr (h.reg b) off

theorem codeWord (h : Alike p counted s s') (a : BitVec A) : Machine.codeWord p s' a = Machine.codeWord p s a := by
  have hbyte (c : BitVec A) : codeByte p s' c = codeByte p s c := by
    unfold codeByte
    split
    · exact h.byte c
    · next hsplit => exact h.code (Bool.eq_false_iff.2 hsplit) c
  simp only [Machine.codeWord, hbyte]

theorem fetch (h : Alike p counted s s') : Machine.fetch p s' = Machine.fetch p s := by
  simp only [Machine.fetch, h.pc, h.codeWord]

end Alike

/-! ### Alike states give alike results

Where the memory map has an `io` address, the number of events must be among what is compared. -/

variable (hio : ∀ a, p.memMap a = .io → counted)
include hio

theorem memRead_alike {a : BitVec A} {v : Byte} {u : State.Of W A σ} (h : Alike p counted s s')
    (hread : memRead p a s = .ok (v, u)) : ∃ u', memRead p a s' = .ok (v, u') ∧ Alike p counted u u' := by
  obtain ⟨hmap, rfl, rfl⟩ | ⟨hmap, rfl, rfl⟩ := memRead_ok hread
  · exact ⟨s', by rw [memRead_of_ram_or_rom hmap, h.byte], h⟩
  · exact ⟨_, by rw [memRead_of_io hmap, h.events (hio a hmap)], h.logIo _⟩

omit hio in
theorem memWrite_alike {a : BitVec A} {v : Byte} {u : State.Of W A σ} (h : Alike p counted s s')
    (hwrite : memWrite p a v s = .ok u) : ∃ u', memWrite p a v s' = .ok u' ∧ Alike p counted u u' := by
  obtain ⟨hmap, rfl⟩ | ⟨hmap, rfl⟩ := memWrite_ok hwrite
  · exact ⟨_, memWrite_of_ram hmap v s', h.setByte a v⟩
  · exact ⟨_, memWrite_of_io hmap v s', h.logIo _⟩

theorem loadUnder_alike {d b : RegId} {off : Off4} (h : Alike p counted s s') (ht : loadUnder p d b off s = .next t) :
    ∃ t', loadUnder p d b off s' = .next t' ∧ Alike p counted t t' := by
  rw [loadUnder, h.effAddr]
  obtain ⟨v, u, hread, rfl⟩ | ⟨f, hread, rfl⟩ := loadUnder_cases ht
  · obtain ⟨u', hread', hu⟩ := memRead_alike hio h hread
    exact ⟨_, by rw [hread'], (hu.setReg d _).advance⟩
  · exact ⟨_, by rw [memRead_error_of_error hread s'], h.raise f⟩

omit hio in
theorem storeUnder_alike {d b : RegId} {off : Off4} (h : Alike p counted s s')
    (ht : storeUnder p d b off s = .next t) : ∃ t', storeUnder p d b off s' = .next t' ∧ Alike p counted t t' := by
  rw [storeUnder, h.effAddr, h.reg]
  obtain ⟨u, hwrite, rfl⟩ | ⟨f, hwrite, rfl⟩ := storeUnder_cases ht
  · obtain ⟨u', hwrite', hu⟩ := memWrite_alike h hwrite
    exact ⟨_, by rw [hwrite'], hu.advance⟩
  · exact ⟨_, by rw [memWrite_error_of_error hwrite s'], h.raise f⟩

omit hio in
theorem retUnder_alike (h : Alike p counted s s') (ht : retUnder p s = .next t) :
    ∃ t', retUnder p s' = .next t' ∧ Alike p counted t t' := by
  have hbyte : s'.byte = s.byte := funext h.byte
  obtain ⟨hm, rfl⟩ | ⟨m, hm, hpop⟩ := retUnder_cases ht
  · exact ⟨_, retUnder_of_no_model hm s', h.pc ▸ h.raise _⟩
  · have hstack : s'.stack = s.stack := h.stack (hm ▸ rfl)
    obtain ⟨a, x, hpop, rfl⟩ | ⟨f, hpop, rfl⟩ := hpop
    · exact ⟨_, by simp only [retUnder, hm, hstack, hbyte, hpop], (h.setStack x).setPc a⟩
    · exact ⟨_, by simp only [retUnder, hm, hstack, hbyte, hpop], h.raise f⟩

theorem execUnder_alike {i : Instr} (h : Alike p counted s s') (ht : execUnder p i s = .next t) :
    ∃ t', execUnder p i s' = .next t' ∧ Alike p counted t t' := by
  cases i with
  | add d r | sub d r | and d r | or d r =>
    cases ht
    exact ⟨_, rfl, by rw [h.reg, h.reg]; exact h.writeAlu d _⟩
  | addi d imm | subi d imm | andi d imm | ori d imm =>
    cases ht
    exact ⟨_, rfl, by rw [h.reg]; exact h.writeAlu d _⟩
  | movi d imm =>
    cases ht
    exact ⟨_, rfl, (h.setReg d _).advance⟩
  | cmp d r =>
    cases ht
    exact ⟨_, rfl, by rw [h.reg, h.reg]; exact (h.setZ _).advance⟩
  | load d b off => exact loadUnder_alike hio h ht
  | store d b off => exact storeUnder_alike h ht
  | jmp off =>
    cases ht
    exact ⟨_, rfl, by rw [h.pc]; exact h.setPc _⟩
  | jz off =>
    cases ht
    exact ⟨_, rfl, by rw [h.z]; exact h.branch _ off⟩
  | jnz off =>
    cases ht
    exact ⟨_, rfl, by rw [h.z]; exact h.branch _ off⟩
  | ret => exact retUnder_alike h ht

/-- Alike states pass and fail the same checks and run the same instruction. -/
theorem stepUnder_alike (h : Alike p counted s s') (ht : stepUnder p s = .next t) :
    ∃ t', stepUnder p s' = .next t' ∧ Alike p counted t t' := by
  obtain ⟨hclear, hcases⟩ := cycle_cases ht
  have hclear' : s'.fault = none := h.fault.trans hclear
  have hparity : s'.pc.toNat % 2 = s.pc.toNat % 2 := by rw [h.pc]
  obtain ⟨hodd, rfl⟩ | ⟨heven, f, hfetch, rfl⟩ | ⟨heven, hfetch, ⟨e, hdecode⟩, rfl⟩ |
    ⟨heven, hfetch, i, hdecode, hrun⟩ := hcases
  · exact ⟨_, cycle_of_odd_pc p _ hclear' (hparity.trans hodd), by rw [h.pc]; exact h.raise _⟩
  · exact ⟨_, cycle_of_fetch_error _ hclear' (hparity.trans heven) (h.fetch.trans hfetch), h.raise f⟩
  · exact ⟨_, cycle_of_decode_error _ hclear' (hparity.trans heven) (h.fetch.trans hfetch) hdecode,
      by rw [h.pc]; exact h.raise _⟩
  · obtain ⟨t', hrun', ht'⟩ := execUnder_alike hio h hrun
    exact ⟨t', (cycle_of_decode_ok _ hclear' (hparity.trans heven) (h.fetch.trans hfetch) hdecode).trans hrun', ht'⟩

end

/-! ### The statements -/

theorem eq_of_sameState {s t : State} (hs : s.mem.wf) (ht : t.mem.wf) (hio : s.ioLog = t.ioLog)
    (hcode : s.code = t.code) (h : SameState s t) : s = t := by
  obtain ⟨hreg, hpc, hz, hbyte, hfault⟩ := h
  have hmem : s.mem = t.mem := Memory.ext_read hs ht fun a ha => by
    simpa [State.Of.byte, Nat.mod_eq_of_lt ha] using hbyte (BitVec.ofNat 8 a)
  exact State.ext_reg hreg hpc hz hmem hfault hio hcode (Subsingleton.elim _ _)

/-- Settles O18: canonical memories by their cells, the test by `sameUnder_iff`, the step by `stepUnder_alike`. -/
theorem statesAreEqualAsTheSpecSays : Obligations.StatesAreEqualAsTheSpecSays := by
  unfold Obligations.StatesAreEqualAsTheSpecSays
  refine ⟨fun m m' hm hm' => ⟨fun h => Memory.ext_read hm hm' fun a ha => ?_, fun h a => h ▸ rfl⟩,
    fun s t => sameUnder_iff.trans (sameUnder_params_iff s t), fun s t hs ht hio hcode =>
      ⟨eq_of_sameState hs ht hio hcode, fun h => h ▸ SameState.refl s⟩, fun W A σ p s s' t hsame hevents ht => ?_⟩
  · simpa [Nat.mod_eq_of_lt ha] using h (BitVec.ofNat 8 a)
  · have halike : Alike p True s s' := alike_iff.2 ⟨hsame, fun _ => hevents⟩
    obtain ⟨t', ht', h⟩ := stepUnder_alike (fun _ _ => trivial) halike ht
    obtain ⟨hsame', hevents'⟩ := alike_iff.1 h
    exact ⟨t', ht', hsame', hevents' trivial⟩

theorem step_ioLog {s t : State} (h : step s = .next t) : t.ioLog = s.ioLog := by
  obtain hsame | ⟨d, b, off, v, -, hmap, -⟩ | ⟨d, b, off, -, hmap, -⟩ :=
    ioHistoryGrowsByTheStepsAccess 8 8 Empty Config.params s t (step_eq_stepUnder s ▸ h)
  · exact hsame
  · cases hmap
  · cases hmap

/-- Settles O25: no address of the decided machine is `io`, so the number of events need not be compared. -/
theorem decidedMachineNeverTouchesIo : Obligations.DecidedMachineNeverTouchesIo := by
  unfold Obligations.DecidedMachineNeverTouchesIo
  intro s t h
  have hunder : stepUnder Config.params s = .next t := step_eq_stepUnder s ▸ h
  refine ⟨step_ioLog h, stepUnder_code hunder, fun s' hsame => ?_⟩
  have halike : Alike Config.params False s s' := alike_iff.2 ⟨(sameUnder_params_iff s s').2 hsame, nofun⟩
  obtain ⟨t', ht', halike'⟩ := stepUnder_alike nofun halike hunder
  obtain ⟨hsame', -⟩ := alike_iff.1 halike'
  exact ⟨t', (step_eq_stepUnder s').trans ht', (sameUnder_params_iff t t').1 hsame'⟩

end Sys2Proof.Machine
end

section
/-! SUPPORT and PROOF. The zero flag (10_state.md R17, 40_alu_register.md R69): who writes it, who reads it, and that
LOAD and STORE do neither (42_memory_access.md R78). -/

namespace Sys2Proof.Machine

variable {W A : Nat} {σ : Type} {p : Params W A σ} {i : Instr} {s t : State.Of W A σ}

/-! ### The instructions that write Z -/

theorem compareFlag_eq_decide (a b : BitVec W) : compareFlag a b = decide (a = b) := by
  rw [Bool.eq_iff_iff, compareFlag_iff, decide_eq_true_iff]

theorem z_writeAlu_result (d : RegId) (v : BitVec W) :
    (s.writeAlu p d v).z = if p.aluWritesZ then decide ((s.writeAlu p d v).reg d = 0) else s.z := by
  rw [State.z_writeAlu, State.reg_writeAlu_same]
  rfl

/-! ### The instructions that do not read Z -/

theorem memRead_setZ (a : BitVec A) (k : Bool) :
    memRead p a (s.setZ k) = (memRead p a s).map (Prod.map id (·.setZ k)) := by
  unfold memRead
  split <;> rfl

theorem memWrite_setZ (a : BitVec A) (v : Byte) (k : Bool) :
    memWrite p a v (s.setZ k) = (memWrite p a v s).map (·.setZ k) := by
  unfold memWrite
  split <;> rfl

theorem loadUnder_setZ {d b : RegId} {off : Off4} (h : loadUnder p d b off s = .next t) (k : Bool) :
    loadUnder p d b off (s.setZ k) = .next (t.setZ k) := by
  have hea : effAddr (s.setZ k) b off = effAddr s b off := rfl
  rw [loadUnder, hea, memRead_setZ]
  obtain ⟨v, u, hread, rfl⟩ | ⟨f, hread, rfl⟩ := loadUnder_cases h <;> rw [hread] <;> rfl

theorem storeUnder_setZ {d b : RegId} {off : Off4} (h : storeUnder p d b off s = .next t) (k : Bool) :
    storeUnder p d b off (s.setZ k) = .next (t.setZ k) := by
  have hea : effAddr (s.setZ k) b off = effAddr s b off := rfl
  rw [storeUnder, hea, State.reg_setZ, memWrite_setZ]
  obtain ⟨u, hwrite, rfl⟩ | ⟨f, hwrite, rfl⟩ := storeUnder_cases h <;> rw [hwrite] <;> rfl

theorem retUnder_setZ (h : retUnder p s = .next t) (k : Bool) : retUnder p (s.setZ k) = .next (t.setZ k) := by
  have hbyte : (s.setZ k).byte = s.byte := rfl
  simp only [retUnder, hbyte, State.stack_setZ]
  obtain ⟨hm, rfl⟩ | ⟨m, hm, ⟨a, x, hpop, rfl⟩ | ⟨f, hpop, rfl⟩⟩ := retUnder_cases h
  · rw [hm]; rfl
  · simp only [hm, hpop]; rfl
  · simp only [hm, hpop]; rfl

/-! A state's own Z, put back into it, comes back from the result. -/

theorem loadUnder_z {d b : RegId} {off : Off4} (h : loadUnder p d b off s = .next t) : t.z = s.z :=
  congrArg (·.z) (Host.Outcome.next.inj (h.symm.trans (loadUnder_setZ h s.z)))

theorem storeUnder_z {d b : RegId} {off : Off4} (h : storeUnder p d b off s = .next t) : t.z = s.z :=
  congrArg (·.z) (Host.Outcome.next.inj (h.symm.trans (storeUnder_setZ h s.z)))

theorem retUnder_z (h : retUnder p s = .next t) : t.z = s.z :=
  congrArg (·.z) (Host.Outcome.next.inj (h.symm.trans (retUnder_setZ h s.z)))

/-- The parameters with another `ALU_WRITES_Z`. -/
def withAluWritesZ (p : Params W A σ) (b : Bool) : Params W A σ := { p with aluWritesZ := b }

/-- An ALU instruction writes Z last, from its result or with the flag that was there. -/
theorem writeAlu_eq_setZ (p : Params W A σ) (d : RegId) (v : BitVec W) (s : State.Of W A σ) :
    s.writeAlu p d v = (s.setReg d v).advance.setZ (if p.aluWritesZ then zeroFlag v else s.z) := by
  unfold State.Of.writeAlu State.Of.setAluZ
  split <;> rfl

theorem writeAlu_setZ (d : RegId) (v : BitVec W) (b k : Bool) :
    ∃ k', (s.setZ k).writeAlu (withAluWritesZ p b) d v = (s.writeAlu p d v).setZ k' := by
  rw [writeAlu_eq_setZ, writeAlu_eq_setZ]
  exact ⟨_, rfl⟩

/-- Neither Z nor `ALU_WRITES_Z` bears on anything but Z, in an instruction other than JZ and JNZ. -/
theorem execUnder_setZ (hi : ∀ off, i ≠ .jz off ∧ i ≠ .jnz off) (h : execUnder p i s = .next t) (b k : Bool) :
    ∃ k', execUnder (withAluWritesZ p b) i (s.setZ k) = .next (t.setZ k') := by
  cases i with
  | add | sub | and | or | addi | subi | andi | ori =>
    cases h
    obtain ⟨k', hk'⟩ := writeAlu_setZ (p := p) (s := s) _ _ b k
    exact ⟨k', congrArg Host.Outcome.next hk'⟩
  | cmp | movi | jmp =>
    cases h
    exact ⟨_, rfl⟩
  | load => exact ⟨k, loadUnder_setZ h k⟩
  | store => exact ⟨k, storeUnder_setZ h k⟩
  | ret => exact ⟨k, retUnder_setZ h k⟩
  | jz off => exact absurd rfl (hi off).1
  | jnz off => exact absurd rfl (hi off).2

theorem execUnder_withAluWritesZ (h : execUnder p i s = .next t) (b : Bool) :
    ∃ k, execUnder (withAluWritesZ p b) i s = .next (t.setZ k) := by
  cases i with
  | jz | jnz =>
    cases h
    exact ⟨_, rfl⟩
  | _ => exact execUnder_setZ (by simp) h b s.z

/-! ### The instructions that read Z -/

/-- In an address space that holds every offset, only offset 0 leads to the next instruction. -/
theorem jumpTarget_ne_next (hA : 8 ≤ A) {off : Byte} (hoff : off ≠ 0) (pc : BitVec A) : jumpTarget pc off ≠ pc + 2 := by
  intro h
  have hzero : off.signExtend A = 0 := by simpa [jumpTarget] using h
  have hint : off.toInt = (0 : Byte).toInt := by
    rw [← BitVec.toInt_signExtend_of_le hA, hzero]
    simp
  exact hoff (BitVec.eq_of_toInt_eq hint)

/-! ### The statements -/

/-- Settles O21: an instruction's own Z, then what another setting or another Z makes of its result. -/
theorem zeroFlagWritersAndReaders : Obligations.ZeroFlagWritersAndReaders := by
  unfold Obligations.ZeroFlagWritersAndReaders
  intro W A σ p i s t h
  refine ⟨?_, fun b u hu => ?_, ?_, ?_, fun hi b u hu => ?_⟩
  · cases i with
    | add | sub | and | or | addi | subi | andi | ori =>
      cases h
      exact z_writeAlu_result ..
    | cmp =>
      cases h
      exact compareFlag_eq_decide ..
    | movi | jmp =>
      cases h
      rfl
    | jz | jnz =>
      cases h
      exact State.z_branch ..
    | load => exact loadUnder_z h
    | store => exact storeUnder_z h
    | ret => exact retUnder_z h
  · obtain ⟨k, hk⟩ := execUnder_withAluWritesZ h b
    cases hu.symm.trans hk
    rfl
  · rintro d r rfl b k u hu
    cases h
    cases hu
    rfl
  · rintro off (rfl | rfl)
    · exact ⟨_, _, rfl, rfl, fun _ => ⟨rfl, rfl⟩, nofun, fun hA hoff => jumpTarget_ne_next hA hoff s.pc⟩
    · exact ⟨_, _, rfl, rfl, nofun, fun _ => ⟨rfl, rfl⟩, fun hA hoff => (jumpTarget_ne_next hA hoff s.pc).symm⟩
  · obtain ⟨k, hk⟩ := execUnder_setZ hi h p.aluWritesZ b
    cases hu.symm.trans hk
    rfl

/-- Settles O43: the sum as a number; LOAD and STORE hand on the flag, whatever it is, and write no base register. -/
theorem effectiveAddressIsBasePlusOffsetWrapped : Obligations.EffectiveAddressIsBasePlusOffsetWrapped := by
  unfold Obligations.EffectiveAddressIsBasePlusOffsetWrapped
  refine fun W A σ => ⟨effAddr_toNat, fun p d b off s t => ⟨fun h => ⟨storeUnder_reg h b, storeUnder_z h⟩,
    fun h => ⟨fun hd => loadUnder_reg_of_ne h hd.symm, loadUnder_z h⟩, fun k => ?_⟩⟩
  exact ⟨fun h => storeUnder_setZ h k, fun h => loadUnder_setZ h k⟩

end Sys2Proof.Machine
end

section
/-! PROOF. Instructions together (20_memory.md R37, 41_alu_immediate.md R77, 42_memory_access.md R81, R82,
43_control_flow.md R85, R86) and words that do nothing but advance the pc (30_encoding.md R59). -/

namespace Sys2Proof.Machine

variable {W A : Nat} {σ : Type} {p : Params W A σ}

/-- Settles O52: neither instruction moves the base that the other reads, and the LOAD reads after the write. -/
theorem loadAfterStoreGivesTheStoredByte : Obligations.LoadAfterStoreGivesTheStoredByte := by
  unfold Obligations.LoadAfterStoreGivesTheStoredByte
  refine fun d b r c off off' s => ⟨_, _, exec_store d b off s, exec_load r c off' _, ?_⟩
  rw [State.reg_setReg_advance_same]
  exact State.byte_setByte ..

/-- Settles O54: CMP leaves in Z whether the registers are equal, and the pc at the jump. -/
theorem conditionalJumpAfterCmp : Obligations.ConditionalJumpAfterCmp := by
  unfold Obligations.ConditionalJumpAfterCmp
  intro a b off s
  have hflag : compareFlag (s.reg a) (s.reg b) = true ↔ s.reg a = s.reg b := compareFlag_iff ..
  have hnext : s.pc + 2 + 2 = s.pc + 4 := BitVec.add_assoc s.pc 2 2
  by_cases heq : s.reg a = s.reg b
  · have hz := hflag.2 heq
    refine ⟨_, _, _, exec_cmp a b s, exec_of_taken (.inr (.inl ⟨rfl, hz⟩)), exec_of_untaken (.inr ⟨rfl, hz⟩), ?_⟩
    rw [if_pos heq]
    exact ⟨rfl, hnext⟩
  · have hz := Bool.eq_false_iff.2 (mt hflag.1 heq)
    refine ⟨_, _, _, exec_cmp a b s, exec_of_untaken (.inl ⟨rfl, hz⟩), exec_of_taken (.inr (.inr ⟨rfl, hz⟩)), ?_⟩
    rw [if_neg heq]
    exact ⟨hnext, rfl⟩

/-! ### Equivalents of the contested opcodes (R77) -/

theorem sub_eq_add_complement (a k : Byte) : a - k = a + BitVec.ofNat 8 (256 - k.toNat) := by
  apply BitVec.eq_of_toNat_eq
  simp only [BitVec.toNat_sub, BitVec.toNat_add, BitVec.toNat_ofNat]
  omega

/-- Settles O55: adding 256 - k is subtracting k mod 256; the pair leaves the register that ANDI leaves. -/
theorem contestedOpcodesHaveEquivalents : Obligations.ContestedOpcodesHaveEquivalents := by
  unfold Obligations.ContestedOpcodesHaveEquivalents
  refine ⟨fun d k s => ?_, fun d x m s hx => ⟨_, _, _, exec_andi d m s, exec_movi x m s, exec_and d x _, ?_⟩⟩
  · rw [exec_subi, exec_addi, sub_eq_add_complement]
  · refine ⟨by simp [hx.symm], by simp [hx], fun r hr => ?_, rfl, rfl⟩
    by_cases hd : r = d <;> simp [hd, hr, hx.symm]

/-! ### The addresses that LOAD and STORE reach (R81) -/

theorem effAddr_after_movi (s : State) (b : RegId) (a : Addr) : effAddr (s.setReg b a).advance b 0 = a := by
  simp [effAddr]

/-- Settles O56: a register holds any address of 8 bits; with wider addresses the sum does not wrap. -/
theorem everyAddressIsReachable : Obligations.EveryAddressIsReachable := by
  unfold Obligations.EveryAddressIsReachable
  refine ⟨fun b d a s => ⟨⟨_, _, exec_movi b a s, exec_load d b 0 _, ?_⟩,
    fun hd => ⟨_, _, exec_movi b a s, exec_store d b 0 _, ?_, fun c hc => ?_⟩⟩, fun A σ hA => ?_⟩
  · rw [State.reg_setReg_advance_same, effAddr_after_movi]
    rfl
  · rw [effAddr_after_movi]
    simp [hd]
  · rw [effAddr_after_movi]
    simp [hc]
  · have hpow : 2 ^ 9 ≤ 2 ^ A := Nat.pow_le_pow_right (by decide) hA
    have hsum (s : State.Of 8 A σ) (b : RegId) (off : Off4) :
        (effAddr s b off).toNat = (s.reg b).toNat + off.toNat := by
      rw [effAddr_toNat, Nat.mod_eq_of_lt (by omega)]
    refine ⟨fun s b off => ?_, fun n hn => ⟨BitVec.ofNat 8 (min n 255), BitVec.ofNat 4 (n - 255), fun s b hv => ?_⟩⟩
    · rw [hsum]
      omega
    · rw [hsum, hv, BitVec.toNat_ofNat, BitVec.toNat_ofNat]
      omega

/-! ### Words that only advance the pc (R59) -/

theorem State.setReg_self (s : State.Of W A σ) (d : RegId) : s.setReg d (s.reg d) = s :=
  State.ext_reg (fun r => by simp +contextual) rfl rfl rfl rfl rfl rfl rfl

theorem writeAlu_self (halu : p.aluWritesZ = false) (d : RegId) {v : BitVec W} {s : State.Of W A σ}
    (hv : v = s.reg d) : s.writeAlu p d v = s.advance := by
  rw [writeAlu_eq_setZ, hv, State.setReg_self, halu]
  rfl

theorem jumpTarget_zero_any_width (pc : BitVec A) : jumpTarget pc 0 = pc + 2 := by
  have hext : (0 : Byte).signExtend A = 0 := BitVec.eq_of_toInt_eq (by simp [BitVec.toInt_signExtend])
  rw [jumpTarget, hext]
  exact BitVec.add_zero _

/-- Settles O57: each of the words writes the register that it reads. -/
theorem wordsThatOnlyAdvanceThePc : Obligations.WordsThatOnlyAdvanceThePc := by
  unfold Obligations.WordsThatOnlyAdvanceThePc
  intro A σ p s d
  have hself {v : Byte} (halu : p.aluWritesZ = false) (hv : v = s.reg d) :
      Host.Outcome.next (s.writeAlu p d v) = (.next s.advance : ResultOf 8 A σ) :=
    congrArg Host.Outcome.next (writeAlu_self halu d hv)
  exact ⟨congrArg (Host.Outcome.next ∘ s.setPc) (jumpTarget_zero_any_width s.pc), fun halu =>
    ⟨hself halu (BitVec.add_zero _), hself halu BitVec.or_zero, hself halu BitVec.and_allOnes,
      hself halu BitVec.and_self, hself halu BitVec.or_self⟩⟩

end Sys2Proof.Machine
end

section
/-! SUPPORT and PROOF. Reset (10_state.md R22), runs that have ended and the executor under fuel
(70_reset_and_hazards.md R112, R113). -/

namespace Sys2Proof.Machine

variable {W A : Nat} {σ : Type} {p : Params W A σ} {ended : State.Of W A σ → Bool} {s t : State.Of W A σ}

/-- Settles O27: zeros in every register, and no cell in the memory. -/
theorem resetValuesTheModelChose : Obligations.ResetValuesTheModelChose := by
  unfold Obligations.ResetValuesTheModelChose
  exact ⟨by decide, rfl, fun _ => rfl, rfl, Memory.nil_wf 256⟩

/-- Settles O59: every step of the run is the one that yields the state again. -/
theorem endedRunStaysAsItIs : Obligations.EndedRunStaysAsItIs := by
  unfold Obligations.EndedRunStaysAsItIs
  intro s n hend
  obtain ⟨-, hstep⟩ := (endedNormally_iff_step_self s).1 hend
  induction n with
  | zero => rfl
  | succ n ih => exact (core_run_succ n hstep).trans ih

/-! ### The executor under fuel -/

theorem endedAbnormally_eq_false : endedAbnormally s = false ↔ s.fault = none :=
  Option.isSome_eq_false_iff.trans Option.isNone_iff_eq_none

/-- Everything the executor can do: stop at an end, stop without fuel, or go on from the next state. -/
theorem runFuelUnder_cases (p : Params W A σ) (ended : State.Of W A σ → Bool) (n : Nat) (s : State.Of W A σ) :
    (s.fault ≠ none ∧ ∀ k, runFuelUnder p ended k s = .abnormal s) ∨
    (s.fault = none ∧ ended s = true ∧ ∀ k, runFuelUnder p ended k s = .normal s) ∨
    (n = 0 ∧ runFuelUnder p ended n s = .outOfFuel s) ∨
    (∃ m t, n = m + 1 ∧ stepUnder p s = .next t ∧
      ∀ k, runFuelUnder p ended (k + 1) s = runFuelUnder p ended k t) := by
  cases habnormal : endedAbnormally s with
  | true => exact .inl ⟨(endedAbnormally_iff s).1 habnormal, fun k => runFuelUnder_abnormal k habnormal⟩
  | false =>
    have hfault : s.fault = none := endedAbnormally_eq_false.1 habnormal
    refine .inr ?_
    cases hended : ended s with
    | true => exact .inl ⟨hfault, rfl, fun k => runFuelUnder_normal k habnormal hended⟩
    | false =>
      refine .inr ?_
      cases n with
      | zero => exact .inl ⟨rfl, runFuelUnder_zero habnormal hended⟩
      | succ m =>
        obtain ⟨t, ht⟩ := stepUnder_answers_next (p := p) hfault
        exact .inr ⟨m, t, rfl, ht, fun k => runFuelUnder_succ k habnormal hended ht⟩

/-- What a report says of the state it is about (R113). -/
def ReportHolds (ended : State.Of W A σ → Bool) : RunEnd (State.Of W A σ) → Prop
  | .normal t => t.fault = none ∧ ended t = true
  | .abnormal t => t.fault ≠ none
  | .outOfFuel _ => True

theorem runFuelUnder_reportHolds (p : Params W A σ) (ended : State.Of W A σ → Bool) (n : Nat) (s : State.Of W A σ) :
    ReportHolds ended (runFuelUnder p ended n s) := by
  induction n using Nat.strong_induction_on generalizing s with
  | _ n ih =>
    obtain ⟨hfault, h⟩ | ⟨hfault, hended, h⟩ | ⟨-, h⟩ | ⟨m, t, rfl, -, h⟩ := runFuelUnder_cases p ended n s <;> rw [h]
    · exact hfault
    · exact ⟨hfault, hended⟩
    · trivial
    · exact ih m m.lt_succ_self t

/-- A report of an end does not need all the fuel. -/
theorem runFuelUnder_add {n : Nat} (hend : ∀ t, runFuelUnder p ended n s ≠ .outOfFuel t) (m : Nat) :
    runFuelUnder p ended (n + m) s = runFuelUnder p ended n s := by
  induction n using Nat.strong_induction_on generalizing s with
  | _ n ih =>
    obtain ⟨-, h⟩ | ⟨-, -, h⟩ | ⟨-, h⟩ | ⟨k, t, rfl, -, h⟩ := runFuelUnder_cases p ended n s
    · rw [h, h]
    · rw [h, h]
    · exact absurd h (hend s)
    · rw [Nat.add_right_comm, h, h]
      exact ih k k.lt_succ_self fun u => h k ▸ hend u

/-- The state a report is about. -/
def RunEnd.state {α : Type} : RunEnd α → α
  | .normal s | .abnormal s | .outOfFuel s => s

/-- The executor takes the steps of the machine: all that its fuel allows when it runs out. -/
theorem runFuel_reaches (n : Nat) (s : State) :
    ∃ k ≤ n, Sys2Proof.core.run k s = .next (runFuel n s).state ∧ (∀ t, runFuel n s = .outOfFuel t → k = n) := by
  induction n using Nat.strong_induction_on generalizing s with
  | _ n ih =>
    obtain ⟨-, h⟩ | ⟨-, -, h⟩ | ⟨rfl, h⟩ | ⟨m, t, rfl, hstep, h⟩ := runFuelUnder_cases Config.params endedNormally n s
    · rw [runFuel, h]
      exact ⟨0, n.zero_le, rfl, nofun⟩
    · rw [runFuel, h]
      exact ⟨0, n.zero_le, rfl, nofun⟩
    · rw [runFuel, h]
      exact ⟨0, le_rfl, rfl, fun _ _ => rfl⟩
    · obtain ⟨k, hk, hrun, hout⟩ := ih m m.lt_succ_self t
      rw [runFuel, h]
      exact ⟨k + 1, Nat.succ_le_succ hk, (core_run_succ k (step_eq_stepUnder s ▸ hstep)).trans hrun,
        fun u hu => congrArg Nat.succ (hout u hu)⟩

/-- Settles O60: every report holds of its state, which the machine reaches; an end is reported with more fuel too. -/
theorem executorUnderFuelIsSound : Obligations.ExecutorUnderFuelIsSound := by
  unfold Obligations.ExecutorUnderFuelIsSound
  refine ⟨fun n m s t => ?_, fun W A σ p ended n s t => ?_, fun W A σ _ p s => endedNormallyUnder_iff⟩
  · obtain ⟨k, hk, hrun, hout⟩ := runFuel_reaches n s
    have hreport : ReportHolds endedNormally (runFuel n s) := runFuelUnder_reportHolds _ _ n s
    have hmore (hend : ∀ u, runFuel n s ≠ .outOfFuel u) : runFuel (n + m) s = runFuel n s := runFuelUnder_add hend m
    refine ⟨fun h => ?_, fun h => ?_, fun h => ?_⟩
    · rw [h] at hreport hrun hmore
      obtain ⟨-, hended⟩ := hreport
      exact ⟨hended, ⟨k, hk, hrun⟩, hmore nofun⟩
    · rw [h] at hreport hrun hmore
      exact ⟨(endedAbnormally_iff t).2 hreport, ⟨k, hk, hrun⟩, hmore nofun⟩
    · rw [h] at hrun
      exact hout t h ▸ hrun
  · have hreport := runFuelUnder_reportHolds p ended n s
    exact ⟨fun h => by rwa [h] at hreport, fun h => by rwa [h] at hreport⟩

end Sys2Proof.Machine
end
